-- ==== Sys2Proof/Word.lean ====
section
/-! DEFINITION. The widths of the block's values: bytes and u32 words (00_scope.md R6, R8). -/
namespace Sys2Proof

/-- A byte, 0..255 (R8). -/
abbrev Byte := BitVec 8

/-- `u32`: COUNTER_WIDTH = OPERAND_WIDTH = 32 bits, unsigned (R6, R8). -/
abbrev Word := BitVec 32

end Sys2Proof
end

