-- ==== Sys2Proof/Config.lean ====
section
/-! DEFINITION. What the spec leaves to the implementation: its two named parameters (00_scope.md R7). The third,
INIT_STATE, is the contents of the persisted-state buffer, which the state holds (log entry 1). -/
namespace Sys2Proof

/-- The two errors the decoder can raise (30_encoding.md R68). -/
inductive DecodeError where
  /-- The opcode byte is not 0, 1, 2 or 3 (60_exceptions.md R100). -/
  | unknownOpcode
  /-- An operand is required and fewer than 4 operand bytes are present (R100). -/
  | truncatedPayload
  deriving DecidableEq, Repr

/-- The parameters of R7 that a model takes as arguments. They are fixed for a machine; a state carries them so that
every statement about all states is a statement about all their values.
DESIGN CHOICE, safe (log entry 2). -/
structure Params where
  /-- P_EMPTY_INSTR_ERROR: the error reported for an instruction buffer of length 0 (92 D3). -/
  emptyInstrError : DecodeError
  /-- P_STATE_LEN_EXACT: whether a state buffer must be exactly 4 bytes long (92 D5). -/
  stateLenExact : Bool
  deriving DecidableEq, Repr

/-- The spec's default for each parameter (R7). -/
def Params.default : Params where
  emptyInstrError := .truncatedPayload
  stateLenExact := false

end Sys2Proof
end

