-- ==== Sys2Proof/Syntax.lean ====
section
/-! DEFINITION. The four instruction terms, one constructor per row of spec/opcode_table.json (00_scope.md R1, R13). -/
namespace Sys2Proof

/-- A decoded instruction (R13), in the numeric order of the opcodes (30_encoding.md R63). -/
inductive Instr where
  /-- Opcode 0x00: wrapping add of the operand (40_counter_ops.md R81). -/
  | increment (v : Word)
  /-- Opcode 0x01: subtract the operand, clamped at zero (R82). -/
  | decrement (v : Word)
  /-- Opcode 0x02: load the operand (R84). -/
  | update (v : Word)
  /-- Opcode 0x03: set the counter to zero; no operand (R83). -/
  | reset
  deriving DecidableEq, Repr

end Sys2Proof
end

