-- ==== Sys2Proof/WellFormed.lean ====
section
/-! DEFINITION. Which instruction terms are well formed. The one range the spec gives an operand is 0..4294967295
(30_encoding.md R74), and no value within it is reserved (R72). -/
namespace Sys2Proof

/-- `<v>` is an integer 0..4294967295; a value outside that range is not an instruction (R74). -/
def operandInRange (v : Nat) : Bool :=
  decide (v < 2 ^ 32)

/-- The operand, if there is one, is in range. Since an `Instr` holds a u32, every term passes (R72: all 2^32 operand
values are legal); what fails the check is an integer that cannot become an operand. -/
def Instr.wellFormed : Instr → Bool
  | .increment v => operandInRange v.toNat
  | .decrement v => operandInRange v.toNat
  | .update v => operandInRange v.toNat
  | .reset => true

end Sys2Proof
end

