-- ==== Sys2Proof/Decode.lean ====
section
/-! DEFINITION. DEC, the instruction decoder (30_encoding.md): opcode mux, operand deserializer and length checks; the
little-endian helpers; the encoder; the assembler of R74; and the reading of an opcode-table word. -/
namespace Sys2Proof

/-! ### Little-endian assembly (00_scope.md R11; the byte weights are the spec's general knowledge G1, log entry 6) -/

/-- `le32(b0, b1, b2, b3) = b3 ++ b2 ++ b1 ++ b0`: the byte at the lowest offset is the least significant (R11). -/
def le32 (b0 b1 b2 b3 : Byte) : Word :=
  b3 ++ b2 ++ b1 ++ b0

/-- Byte `k` of a word, `v[8k+7 : 8k]` (R11). -/
def wordByte (v : Word) (k : Nat) : Byte :=
  v.extractLsb' (8 * k) 8

/-- `le32_bytes(v) = [v[7:0], v[15:8], v[23:16], v[31:24]]` (R11). -/
def le32Bytes (v : Word) : List Byte :=
  [wordByte v 0, wordByte v 1, wordByte v 2, wordByte v 3]

/-! ### The decoder -/

/-- KIND, the output of the opcode mux (10_state.md R27). -/
inductive Kind where
  | increment
  | decrement
  | update
  | reset
  deriving DecidableEq, Repr

/-- The complete map of the opcode byte (30_encoding.md R63, R65): `none` for the illegal 0x04..0xFF. -/
def opcodeMux (opc : Byte) : Option Kind :=
  match opc.toNat with
  | 0 => some .increment
  | 1 => some .decrement
  | 2 => some .update
  | 3 => some .reset
  | _ => none

/-- The operand deserializer (R66): `le32(IB[1], IB[2], IB[3], IB[4])`, or `TruncatedPayload` when n < 5. Bytes from
offset 5 on are not read (R69). -/
def deserializeOperand (ib : List Byte) : Except DecodeError Word :=
  match ib with
  | _ :: b1 :: b2 :: b3 :: b4 :: _ => .ok (le32 b1 b2 b3 b4)
  | _ => .error .truncatedPayload

/-- `decode(IB)` (R68), total on every byte sequence. The checks stand in the order of 60_exceptions.md R102: empty
buffer (the parameter P_EMPTY_INSTR_ERROR, R64), opcode (R65), operand length (R66). Reset reads no byte after the
opcode (R67). -/
def decode (emptyErr : DecodeError) (ib : List Byte) : Except DecodeError Instr :=
  match ib with
  | [] => .error emptyErr
  | opc :: _ =>
    match opcodeMux opc with
    | none => .error .unknownOpcode
    | some .reset => .ok .reset
    | some .increment => (deserializeOperand ib).map .increment
    | some .decrement => (deserializeOperand ib).map .decrement
    | some .update => (deserializeOperand ib).map .update

/-! ### The encoder -/

/-- The kind of a term. -/
def Instr.kind : Instr → Kind
  | .increment _ => .increment
  | .decrement _ => .decrement
  | .update _ => .update
  | .reset => .reset

/-- The opcode byte of each kind (R63). -/
def Kind.opcode : Kind → Byte
  | .increment => 0x00
  | .decrement => 0x01
  | .update => 0x02
  | .reset => 0x03

/-- The length in bytes of each kind's format: OP32 has 5, OP0 has 1 (R61, R62). -/
def Kind.formatLength : Kind → Nat
  | .increment => 5
  | .decrement => 5
  | .update => 5
  | .reset => 1

/-- The canonical encoding of a term (R74). -/
def encode : Instr → List Byte
  | .increment v => Kind.opcode .increment :: le32Bytes v
  | .decrement v => Kind.opcode .decrement :: le32Bytes v
  | .update v => Kind.opcode .update :: le32Bytes v
  | .reset => [Kind.opcode .reset]

/-! ### The assembler (R74). Numerals and spacing beyond R74's words: DESIGN CHOICE, log entry 7 -/

/-- The mnemonics are the variant names (R74). -/
def Kind.mnemonic : Kind → List Char
  | .increment => ['I', 'n', 'c', 'r', 'e', 'm', 'e', 'n', 't']
  | .decrement => ['D', 'e', 'c', 'r', 'e', 'm', 'e', 'n', 't']
  | .update => ['U', 'p', 'd', 'a', 't', 'e']
  | .reset => ['R', 'e', 's', 'e', 't']

/-- The kind a mnemonic names, letter for letter. -/
def kindOfMnemonic (m : List Char) : Option Kind :=
  [Kind.increment, .decrement, .update, .reset].find? fun k => decide (k.mnemonic = m)

/-- The value of one digit: 0..9, and A..F or a..f above that. -/
def digitValue (c : Char) : Option Nat :=
  let n := c.toNat
  if 48 ≤ n ∧ n ≤ 57 then some (n - 48)
  else if 65 ≤ n ∧ n ≤ 70 then some (n - 55)
  else if 97 ≤ n ∧ n ≤ 102 then some (n - 87)
  else none

/-- The number written by the digits `cs` in the given base after those that gave `acc`. -/
def digitsValue (base : Nat) : Nat → List Char → Option Nat
  | acc, [] => some acc
  | acc, c :: cs =>
    match digitValue c with
    | some d => if d < base then digitsValue base (base * acc + d) cs else none
    | none => none

/-- An integer in decimal, or `0x` and hexadecimal digits (R74). -/
def parseInteger (cs : List Char) : Option Nat :=
  match cs with
  | [] => none
  | ['0', 'x'] => none
  | '0' :: 'x' :: ds => digitsValue 16 0 ds
  | ds => digitsValue 10 0 ds

/-- `KIND` with its operand: OP32 kinds take one integer in range, Reset takes none; anything else the assembler
refuses (R74). -/
def assembleTerm (k : Kind) (operand : Option Nat) : Option Instr :=
  match k, operand with
  | .reset, none => some .reset
  | .increment, some v => if operandInRange v then some (.increment (BitVec.ofNat 32 v)) else none
  | .decrement, some v => if operandInRange v then some (.decrement (BitVec.ofNat 32 v)) else none
  | .update, some v => if operandInRange v then some (.update (BitVec.ofNat 32 v)) else none
  | _, _ => none

/-- One line of assembly, a mnemonic and, after one space, its operand, to its canonical encoding (R74). -/
def assembleLine (line : List Char) : Option (List Byte) :=
  match kindOfMnemonic (line.takeWhile (· ≠ ' ')), line.dropWhile (· ≠ ' ') with
  | some k, [] => (assembleTerm k none).map encode
  | some k, _ :: numeral =>
    match parseInteger numeral with
    | some v => (assembleTerm k (some v)).map encode
    | none => none
  | none, _ => none

/-! ### Words of the opcode table (bit 0 is the least significant bit of IB[0], R61) -/

/-- The `count` lowest bytes of `w`, the lowest first. -/
def bytesOfNat : Nat → Nat → List Byte
  | 0, _ => []
  | count + 1, w => BitVec.ofNat 8 w :: bytesOfNat count (w / 256)

/-- The instruction buffer that holds the `nbits` bits of `w`, with zeros above up to the longest instruction. -/
def tableBytes (nbits w : Nat) : List Byte :=
  bytesOfNat (max 5 ((nbits + 7) / 8)) (w % 2 ^ nbits)

/-- The instruction the decoder reads from an opcode-table word. The buffer is never empty, so the parameter
P_EMPTY_INSTR_ERROR plays no part. -/
def decodeTableWord (nbits w : Nat) : Option Instr :=
  (decode Params.default.emptyInstrError (tableBytes nbits w)).toOption

end Sys2Proof
end

