-- ==== Sys2Proof/Machine/Flags.lean ====
section
/-! DEFINITION. The block has no status flag (10_state.md R28), so no instruction writes one. What stands here are the
signals inside the ALU as 40_counter_ops.md R85 draws it: the 33-bit sum and difference, the carry that is dropped, the
borrow that selects the clamp, and the result mux. R85's structure is not normative (92 D1): the meanings of
Machine/Counter.lean follow R81 to R84 and do not use it. -/
namespace Sys2Proof.Machine

/-- `sum = zext_33(CUR) + zext_33(OPERAND)` (R85). -/
def aluSum (cur operand : Word) : BitVec 33 :=
  cur.zeroExtend 33 + operand.zeroExtend 33

/-- `sum[32]`, the carry, which is dropped (R85, 10_state.md R28). -/
def aluCarry (cur operand : Word) : Bool :=
  (aluSum cur operand).getLsbD 32

/-- `diff = zext_33(CUR) - zext_33(OPERAND)` mod 2^33 (R85). -/
def aluDiff (cur operand : Word) : BitVec 33 :=
  cur.zeroExtend 33 - operand.zeroExtend 33

/-- `borrow = diff[32]` (R85). -/
def aluBorrow (cur operand : Word) : Bool :=
  (aluDiff cur operand).getLsbD 32

/-- The four-way result mux selected by KIND (R85). -/
def aluMux (kind : Kind) (cur operand : Word) : Word :=
  match kind with
  | .increment => (aluSum cur operand).extractLsb' 0 32
  | .decrement => if aluBorrow cur operand then 0 else (aluDiff cur operand).extractLsb' 0 32
  | .update => operand
  | .reset => 0

end Sys2Proof.Machine
end

