-- ==== Sys2Proof/Machine/State.lean ====
section
/-! DEFINITION. The state of the machine: the persisted-state buffer, which holds the counter, the STATUS port, the
invocations the host has lined up, and the spec's parameters. Plain data throughout. -/
namespace Sys2Proof.Machine

/-- The four errors of the block, each raised by the invocation it belongs to (60_exceptions.md R100). -/
inductive InvocationError where
  /-- DEC: the opcode byte is none of 0, 1, 2, 3. -/
  | unknownOpcode
  /-- DEC: fewer than 4 operand bytes. -/
  | truncatedPayload
  /-- SRF read path: the persisted-state buffer has a length that is not accepted. -/
  | stateDeserializationError
  /-- SRF write path: the buffer is too short for the write-back; it cannot be raised (R103). -/
  | stateSerializationError
  deriving DecidableEq, Repr

/-- What the STATUS port reports at the end of an invocation (60_exceptions.md R101), kept as an enumeration (R101:
"A model may keep the outcome as a closed enumeration"). -/
inductive Status where
  /-- "counter updated to new value". -/
  | ok
  /-- The invocation was aborted by this error (R104). -/
  | aborted (e : InvocationError)
  deriving DecidableEq, Repr

/-- One invocation the host makes (10_state.md R33, 70_reset_and_hazards.md R137): the instruction bytes, and the
persisted-state buffer handed over with them. `none` hands over the buffer as the previous invocation left it;
`some bytes` hands over a buffer with these contents, of any length (00_scope.md R7: `m` is per invocation). -/
structure Invocation where
  /-- IB, the raw instruction bytes, offset 0 first. -/
  ib : List Byte
  /-- SB, if the host hands over other contents than the last ones. -/
  newSb : Option (List Byte)
  deriving DecidableEq, Repr

/-- A byte buffer of `len` bytes at offsets 0..len-1. `cells` lists the offsets whose byte differs from what an
unlisted offset reads as, in rising order (the canonical form `Memory.wf` of Machine/Ops.lean). -/
structure Memory where
  len : Nat
  cells : List Host.Cell
  deriving DecidableEq, Repr

/-- The state between steps. The transient values OPC, KIND, OPERAND, CUR and NEXT exist only inside a step
(10_state.md R27; log entry 5). -/
structure State where
  /-- The parameters of 00_scope.md R7; no step changes them (log entry 2). -/
  params : Params
  /-- SB, the persisted-state buffer; its bytes 0..3 ARE the counter (10_state.md R22). -/
  sb : Memory
  /-- The invocations the host has lined up, the next one first (10_state.md R21; log entry 3). -/
  pending : List Invocation
  /-- The STATUS port: what the invocation that the last step ran reported, `none` when the last step ended no
  invocation (10_state.md R29, R33, R34; log entry 4). -/
  status : Option Status
  deriving DecidableEq, Repr

/-- Why the machine could stop with a fault. -/
inductive Fault where
  /-- Raised by runDecoded when it would access an offset past the end of the persisted-state buffer, which does not
  exist (00_scope.md R10, R12). Safe. The length check before the access keeps every step from it. -/
  | outsideStateBuffer
  deriving DecidableEq, Repr

/-- Why the model could have no meaning for an instruction. -/
inductive Refusal where
  /-- Raised by an arm of exec whose instruction has no meaning yet. Safe. No arm raises it: all four have theirs. -/
  | notModelled (mnemonic : String)
  deriving DecidableEq, Repr

/-- The machine right after reset (10_state.md R34): nothing reported, no invocation made yet, the parameters at the
spec's defaults. The block resets no counter: the buffer is the host's, and its first contents are the OPEN parameter
INIT_STATE. DESIGN CHOICE, unsafe (log entry 1): four bytes of zero. Machine/Ops.lean's `stateAtStart` takes
INIT_STATE as an argument. -/
def State.reset : State where
  params := Params.default
  sb := { len := 4, cells := [] }
  pending := []
  status := none

end Sys2Proof.Machine
end

