-- ==== Sys2Proof/Machine/Ops.lean ====
section
/-! DEFINITION. The named operations over the state: the persisted-state buffer byte by byte and four bytes at a time,
the counter, the host's handing over of an invocation, the abort, and the one datapath every instruction runs through
(40_counter_ops.md R80). -/
namespace Sys2Proof.Machine

/-! ### The persisted-state buffer -/

/-- What an offset that is not listed reads as. DESIGN CHOICE (log entry 1). -/
def unlistedByte : Byte := 0

/-- The byte the cells give offset `a`. -/
def lookupCell : List Host.Cell → Nat → Byte
  | [], _ => unlistedByte
  | (k, b) :: rest, a => if k = a then b else lookupCell rest a

/-- The cells without any entry for offset `a`. -/
def eraseCell : List Host.Cell → Nat → List Host.Cell
  | [], _ => []
  | (k, b) :: rest, a => if k = a then eraseCell rest a else (k, b) :: eraseCell rest a

/-- The cells with an entry put in at its place in the rising order. -/
def insertCell : List Host.Cell → Nat → Byte → List Host.Cell
  | [], a, b => [(a, b)]
  | (k, x) :: rest, a, b => if a < k then (a, b) :: (k, x) :: rest else (k, x) :: insertCell rest a b

/-- The cells with offset `a` holding `b`, in canonical form again. -/
def setCell (cells : List Host.Cell) (a : Nat) (b : Byte) : List Host.Cell :=
  if b = unlistedByte then eraseCell cells a else insertCell (eraseCell cells a) a b

/-- The offsets rise from `lo` on, all are below `len`, and no entry says what an unlisted offset says. -/
def cellsCanonical (len : Nat) : Nat → List Host.Cell → Bool
  | _, [] => true
  | lo, (k, b) :: rest =>
    decide (lo ≤ k) && decide (k < len) && decide (b ≠ unlistedByte) && cellsCanonical len (k + 1) rest

/-- The canonical form: equal buffers are equal data. -/
def Memory.wf (m : Memory) : Bool :=
  cellsCanonical m.len 0 m.cells

/-- The byte at an offset, without the bound. -/
def Memory.byteAt (m : Memory) (a : Nat) : Byte :=
  lookupCell m.cells a

/-- The byte at an offset of the buffer; an offset past its end does not exist (00_scope.md R10). -/
def Memory.read (m : Memory) (a : Nat) : Option Byte :=
  if a < m.len then some (m.byteAt a) else none

/-- The buffer with one byte replaced. -/
def Memory.setByte (m : Memory) (a : Nat) (b : Byte) : Memory :=
  { m with cells := setCell m.cells a b }

/-- The buffer with the bytes from offset `a` on replaced. -/
def Memory.setBytes (m : Memory) (a : Nat) : List Byte → Memory
  | [] => m
  | b :: rest => (m.setByte a b).setBytes (a + 1) rest

/-- `MemRead(a, 4)` (00_scope.md R12): the little-endian value of four bytes, `none` where one does not exist. -/
def Memory.memRead32 (m : Memory) (a : Nat) : Option Word :=
  if a + 4 ≤ m.len then
    some (le32 (m.byteAt a) (m.byteAt (a + 1)) (m.byteAt (a + 2)) (m.byteAt (a + 3)))
  else none

/-- `MemWrite(a, 4, v)` (R12): all four bytes of `le32_bytes(v)` in one commit, or nothing (20_memory.md R44). -/
def Memory.memWrite32 (m : Memory) (a : Nat) (v : Word) : Option Memory :=
  if a + 4 ≤ m.len then some (m.setBytes a (le32Bytes v)) else none

/-- The cells of a byte sequence whose first byte has offset `a`. -/
def cellsOfBytes : Nat → List Byte → List Host.Cell
  | _, [] => []
  | a, b :: rest => if b = unlistedByte then cellsOfBytes (a + 1) rest else (a, b) :: cellsOfBytes (a + 1) rest

/-- A buffer with these contents. -/
def Memory.ofBytes (bytes : List Byte) : Memory where
  len := bytes.length
  cells := cellsOfBytes 0 bytes

/-- The contents of a buffer, offset 0 first. -/
def Memory.bytes (m : Memory) : List Byte :=
  (List.range m.len).map m.byteAt

/-! ### The counter and the state register file -/

/-- The offset of the counter in SB (10_state.md R22, 20_memory.md R46). -/
abbrev counterOffset : Nat := 0

/-- MIN_STATE_BUF_LEN (00_scope.md R6). -/
abbrev minStateBufLen : Nat := 4

/-- `COUNTER = le32(SB[0], SB[1], SB[2], SB[3])`, provided m >= 4 (10_state.md R22). -/
def State.counter (s : State) : Option Word :=
  s.sb.memRead32 counterOffset

/-- `state_len_ok(m)` (10_state.md R24). -/
def stateLengthOk (p : Params) (m : Nat) : Bool :=
  if p.stateLenExact then decide (m = minStateBufLen) else decide (minStateBufLen ≤ m)

/-- Whether the SRF accepts the buffer this state holds (R24). -/
def State.stateLenOk (s : State) : Bool :=
  stateLengthOk s.params s.sb.len

/-- The machine before the first invocation, with INIT_STATE as the argument it is (00_scope.md R7, 10_state.md R34). -/
def stateAtStart (p : Params) (initState : List Byte) : State where
  params := p
  sb := Memory.ofBytes initState
  pending := []
  status := none

/-! ### Status, the abort, the host's side -/

/-- The error a failed decode reports (60_exceptions.md R100). -/
def decodeErrorStatus : DecodeError → InvocationError
  | .unknownOpcode => .unknownOpcode
  | .truncatedPayload => .truncatedPayload

/-- The 3-bit code of an outcome on the STATUS port (60_exceptions.md R101, the spec's own numbering D2). -/
def statusCode : Status → BitVec 3
  | .ok => 0
  | .aborted .unknownOpcode => 1
  | .aborted .truncatedPayload => 2
  | .aborted .stateDeserializationError => 3
  | .aborted .stateSerializationError => 4

/-- The state with this on the STATUS port. -/
def State.withStatus (s : State) (status : Option Status) : State :=
  { s with status := status }

/-- The state with this persisted-state buffer. -/
def State.withSb (s : State) (sb : Memory) : State :=
  { s with sb := sb }

/-- `raise <Error>`, the abort, ONE operation for all four errors (60_exceptions.md R104): the error is reported, SB is
left as it is and nothing is saved. The machine goes on with the next invocation (R106), so this is a next state. -/
def raise (e : InvocationError) (s : State) : Host.Outcome State Fault Refusal :=
  .next (s.withStatus (some (.aborted e)))

/-- `return OK` after the write-back (00_scope.md R12, 10_state.md R23). -/
def returnOk (sb : Memory) (s : State) : Host.Outcome State Fault Refusal :=
  .next ((s.withSb sb).withStatus (some .ok))

/-- The buffer an invocation runs on: the one handed over with it, or the one the previous invocation left
(20_memory.md R48). -/
def handedOver (s : State) (inv : Invocation) : Memory :=
  match inv.newSb with
  | none => s.sb
  | some bytes => Memory.ofBytes bytes

/-- The host makes the invocation `inv`; `rest` are those still to come (70_reset_and_hazards.md R137). The block has
nothing of its own to set up (10_state.md R26). -/
def State.accept (s : State) (inv : Invocation) (rest : List Invocation) : State :=
  { s with sb := handedOver s inv, pending := rest }

/-- A step with no invocation to run: the block does nothing and the STATUS port holds nothing (10_state.md R21, R29).
DESIGN CHOICE, safe (log entry 3). -/
def idle (s : State) : Host.Outcome State Fault Refusal :=
  .next (s.withStatus none)

/-! ### The invocation datapath -/

/-- The steps of `Invoke` after a successful decode (40_counter_ops.md R80): length check, read of CUR, NEXT from CUR,
the check at write-back (dead, 60_exceptions.md R103), the atomic write, `return OK`. `nextOf` is the instruction's own
part. -/
def runDecoded (nextOf : Word → Word) (s : State) : Host.Outcome State Fault Refusal :=
  if s.stateLenOk then
    match s.sb.memRead32 counterOffset with
    | none => .fault .outsideStateBuffer
    | some cur =>
      if s.sb.len < minStateBufLen then raise .stateSerializationError s
      else
        match s.sb.memWrite32 counterOffset (nextOf cur) with
        | none => .fault .outsideStateBuffer
        | some sb => returnOk sb s
  else raise .stateDeserializationError s

end Sys2Proof.Machine
end

