-- ==== Sys2Proof/Machine/Operands.lean ====
section
/-! DEFINITION. The operand forms: OP32 carries one immediate u32, OP0 none (30_encoding.md R61, R66). The only other
operand is implicit, the counter, which every instruction reads and writes (10_state.md R20; Machine/Ops.lean). -/
namespace Sys2Proof.Machine

/-- OPERAND (10_state.md R27): defined only for Increment, Decrement and Update. -/
def instrOperand : Instr → Option Word
  | .increment v => some v
  | .decrement v => some v
  | .update v => some v
  | .reset => none

end Sys2Proof.Machine
end

