-- ==== Sys2Proof/Machine/Counter.lean ====
section
/-! DEFINITION. The one family of instructions, the counter operations (40_counter_ops.md R81 to R84): for each, the next
counter value and its meaning. -/
namespace Sys2Proof.Machine

/-- `NEXT <- (CUR + v) mod 2^32` (R81). -/
def nextIncrement (v cur : Word) : Word :=
  cur + v

/-- `if v > CUR then NEXT <- 0 else NEXT <- CUR - v` (R82). -/
def nextDecrement (v cur : Word) : Word :=
  if cur < v then 0 else cur - v

/-- `NEXT <- v` (R84). -/
def nextUpdate (v _cur : Word) : Word :=
  v

/-- `NEXT <- 0` (R83). -/
def nextReset (_cur : Word) : Word :=
  0

/-- `apply(c, instr)`: the next counter value, total (00_scope.md R13, 40_counter_ops.md R88). -/
def apply (cur : Word) : Instr → Word
  | .increment v => nextIncrement v cur
  | .decrement v => nextDecrement v cur
  | .update v => nextUpdate v cur
  | .reset => nextReset cur

/-- Increment: wrapping add (R81). -/
def execIncrement (v : Word) (s : State) : Host.Outcome State Fault Refusal :=
  runDecoded (nextIncrement v) s

/-- Decrement: saturating subtract (R82). -/
def execDecrement (v : Word) (s : State) : Host.Outcome State Fault Refusal :=
  runDecoded (nextDecrement v) s

/-- Update: load the operand (R84). CUR is read all the same. -/
def execUpdate (v : Word) (s : State) : Host.Outcome State Fault Refusal :=
  runDecoded (nextUpdate v) s

/-- Reset: set to zero (R83). CUR is read all the same. -/
def execReset (s : State) : Host.Outcome State Fault Refusal :=
  runDecoded nextReset s

end Sys2Proof.Machine
end

