-- ==== Sys2Proof/Machine/Dispatch.lean ====
section
/-! DEFINITION. Which meaning each instruction has, one arm per constructor. -/
namespace Sys2Proof.Machine

def exec (i : Instr) (s : State) : Host.Outcome State Fault Refusal :=
  match i with
  | .increment v => Sys2Proof.Machine.execIncrement v s
  | .decrement v => Sys2Proof.Machine.execDecrement v s
  | .update v => Sys2Proof.Machine.execUpdate v s
  | .reset => Sys2Proof.Machine.execReset s

end Sys2Proof.Machine
end

