-- ==== Sys2Proof/Machine/Step.lean ====
section
/-! DEFINITION. One step is one invocation (20_memory.md R45): the host's next invocation is handed over, decoded and
run, or aborted by its decode error (40_counter_ops.md R80). -/
namespace Sys2Proof.Machine

/-- `Invoke(IB, SB)` on the next invocation the host has lined up (R80); with none, nothing happens (log entry 3). -/
def step (s : State) : Host.Outcome State Fault Refusal :=
  match s.pending with
  | [] => idle s
  | inv :: rest =>
    match decode s.params.emptyInstrError inv.ib with
    | .error e => raise (decodeErrorStatus e) (s.accept inv rest)
    | .ok i => exec i (s.accept inv rest)

/-- The host makes, next, an invocation of the instruction in an opcode-table word, on the buffer as it is. The block
fetches at no address (10_state.md R21): its next instruction is the head of the host's queue (log entry 3). -/
def State.withFetchWord (s : State) (nbits w : Nat) : State :=
  { s with pending := { ib := tableBytes nbits w, newSb := none } :: s.pending }

end Sys2Proof.Machine
end

