-- ==== Sys2Proof/Safety.lean ====
section
/-! DEFINITION. The terms claims use: the invariant of the state, what a write-back may touch, and `Invoke` as a function
of byte sequences alone, written from 40_counter_ops.md R80 without the model's memory. -/
namespace Sys2Proof.Safety

open Sys2Proof.Machine

/-- The invariant every step keeps: the persisted-state buffer is in canonical form. -/
def StateInv (s : State) : Prop :=
  s.sb.wf = true

/-- The bytes of SB, offset 0 first. -/
def sbBytes (s : State) : List Byte :=
  s.sb.bytes

/-- Two states agree on all but STATUS and the four bytes at offset `a`: the parameters, the invocations still to come,
the length of SB, and every byte of SB outside those four. -/
structure SameOutsideFourBytes (a : Nat) (s t : State) : Prop where
  params : t.params = s.params
  pending : t.pending = s.pending
  len : t.sb.len = s.sb.len
  bytes : ∀ k, k < a ∨ a + 4 ≤ k → t.sb.read k = s.sb.read k

/-- `Invoke(IB, SB) -> (STATUS, SB')` on byte sequences (R80, 92 D1): decode, length check, CUR, NEXT, the check at
write-back, the write. -/
def invokeBytes (p : Params) (ib sb : List Byte) : Status × List Byte :=
  match decode p.emptyInstrError ib with
  | .error e => (.aborted (decodeErrorStatus e), sb)
  | .ok i =>
    if stateLengthOk p sb.length then
      match sb with
      | b0 :: b1 :: b2 :: b3 :: rest => (.ok, le32Bytes (apply (le32 b0 b1 b2 b3) i) ++ rest)
      | short => (.aborted .stateSerializationError, short)
    else (.aborted .stateDeserializationError, sb)

/-- The buffer an invocation runs on, as bytes (20_memory.md R48). -/
def handedBytes (sb : List Byte) (inv : Invocation) : List Byte :=
  inv.newSb.getD sb

/-- A program, a sequence of invocations run one at a time by the host (95_test_vectors.md section 3): the contents of
SB after all of them, each reading what the previous one left (20_memory.md R48). -/
def runProgram (p : Params) (sb : List Byte) (program : List Invocation) : List Byte :=
  program.foldl (fun sb inv => (invokeBytes p inv.ib (handedBytes sb inv)).2) sb

end Sys2Proof.Safety
end

