-- ==== Sys2Proof/Certificates/Slice0/Obligations.lean ====
section
/-! DEFINITION. The statements for the provers, each from the spec's rules or from the log entry its docstring names. -/

open Sys2Proof Sys2Proof.Machine Sys2Proof.Safety

/-! ### The decoder -/

/-- 30_encoding.md R75 (an inference the spec marks as derived): decoding the canonical encoding of a well-formed
instruction gives it back, at every operand value and for both values of P_EMPTY_INSTR_ERROR. -/
def Obligations.DecodeOfEncodeIsTheInstruction : Prop :=
  ∀ (e : DecodeError) (i : Instr), i.wellFormed = true → decode e (encode i) = .ok i

/-- 30_encoding.md R66, R67, R69 (R69 is the spec's decision D4) and the table of R71 (derived): the buffers that decode
to an instruction are exactly those that begin with its canonical encoding. -/
def Obligations.AcceptedBuffersBeginWithTheEncoding : Prop :=
  ∀ (e : DecodeError) (ib : List Byte) (i : Instr), decode e ib = .ok i ↔ encode i <+: ib

/-- 30_encoding.md R65: the opcode mux, and that every value outside 0..3 fails at once, before any length check. -/
def Obligations.OpcodeSelectsKindOrFails : Prop :=
  ∀ (e : DecodeError) (opc : Byte) (rest : List Byte),
    (opc.toNat = 0 → opcodeMux opc = some .increment) ∧
    (opc.toNat = 1 → opcodeMux opc = some .decrement) ∧
    (opc.toNat = 2 → opcodeMux opc = some .update) ∧
    (opc.toNat = 3 → opcodeMux opc = some .reset) ∧
    (∀ i, decode e (opc :: rest) = .ok i → opcodeMux opc = some i.kind) ∧
    (4 ≤ opc.toNat → decode e (opc :: rest) = .error .unknownOpcode)

/-- 30_encoding.md R66: for an opcode that takes an operand, fewer than 5 bytes fail with TruncatedPayload, and with 5
bytes or more the operand is the unsigned value with the byte weights written out. That decode succeeds with MORE than 5
bytes is R69, the spec's decision 92 D4 (log entry 10), and the weights are the spec's general knowledge 93 G1 (log
entry 6), so the statement is derived. -/
def Obligations.OperandIsDeserializedLittleEndian : Prop :=
  ∀ (e : DecodeError) (opc : Byte) (k : Kind), opcodeMux opc = some k → k ≠ .reset →
    (∀ rest : List Byte, (opc :: rest).length < 5 → decode e (opc :: rest) = .error .truncatedPayload) ∧
    (∀ (b1 b2 b3 b4 : Byte) (rest : List Byte), ∃ i v,
      decode e (opc :: b1 :: b2 :: b3 :: b4 :: rest) = .ok i ∧ i.kind = k ∧ instrOperand i = some v ∧
        v.toNat = b1.toNat + 2 ^ 8 * b2.toNat + 2 ^ 16 * b3.toNat + 2 ^ 24 * b4.toNat)

/-- 30_encoding.md R67: Reset decodes for every n >= 1, whatever bytes follow the opcode. -/
def Obligations.ResetIgnoresItsTrailingBytes : Prop :=
  ∀ (e : DecodeError) (trailing : List Byte), decode e (0x03 :: trailing) = .ok .reset

/-- 30_encoding.md R64 with the spec's decision 92 D3: an empty instruction buffer aborts the invocation with the error
the parameter P_EMPTY_INSTR_ERROR names. -/
def Obligations.EmptyBufferReportsTheParameter : Prop :=
  ∀ (s : State) (newSb : Option (List Byte)) (rest : List Invocation),
    s.pending = { ib := [], newSb := newSb } :: rest →
    ∃ t, step s = .next t ∧ t.status = some (.aborted (decodeErrorStatus s.params.emptyInstrError)) ∧
      t.sb = handedOver s { ib := [], newSb := newSb }

/-- Words written out from 30_encoding.md R61, R63: each decodes to the instruction it stands for. A sanity statement. -/
def Obligations.WordsOfTheSpecDecode : Prop :=
  decode .truncatedPayload [0x00, 0x30, 0x00, 0x00, 0x00] = .ok (.increment 48) ∧
  decode .truncatedPayload [0x01, 0x00, 0x01, 0x00, 0x00] = .ok (.decrement 256) ∧
  decode .truncatedPayload [0x02, 0x78, 0x56, 0x34, 0x12] = .ok (.update 0x12345678) ∧
  decode .truncatedPayload [0x03] = .ok .reset ∧
  decode .truncatedPayload [0x09, 0x01, 0x02, 0x03, 0x04] = .error .unknownOpcode ∧
  decode .truncatedPayload [0x00, 0x01, 0x02, 0x03] = .error .truncatedPayload

/-- 30_encoding.md R74 (the notation is the spec's decision 92 D13): the assembler refuses an integer outside
0..4294967295 for an operand, and takes every one inside it to the instruction with that operand. -/
def Obligations.AssemblerTakesExactlyTheOperandsInRange : Prop :=
  ∀ (k : Kind) (v : Nat), k ≠ .reset →
    (2 ^ 32 ≤ v → assembleTerm k (some v) = none) ∧
    (v < 2 ^ 32 → ∃ i, assembleTerm k (some v) = some i ∧ i.kind = k ∧
      (instrOperand i).map (·.toNat) = some v ∧ (encode i).length = 5)

/-! ### Byte order and the counter's place in the buffer -/

/-- 00_scope.md R11 (the weights are the spec's general knowledge G1, log entry 6): the value of four little-endian
bytes, and that `le32_bytes` gives those bytes back. -/
def Obligations.LittleEndianWeights : Prop :=
  ∀ b0 b1 b2 b3 : Byte,
    (le32 b0 b1 b2 b3).toNat = b0.toNat + 2 ^ 8 * b1.toNat + 2 ^ 16 * b2.toNat + 2 ^ 24 * b3.toNat ∧
    le32Bytes (le32 b0 b1 b2 b3) = [b0, b1, b2, b3]

/-- 40_counter_ops.md R86: serializing a counter value and reading it back gives the value, as bytes and through the
buffer; and the write-back of a successful invocation, read again, gives the value that was written. -/
def Obligations.CounterSurvivesSerialization : Prop :=
  (∀ v : Word, ∃ b0 b1 b2 b3, le32Bytes v = [b0, b1, b2, b3] ∧ le32 b0 b1 b2 b3 = v) ∧
  (∀ (m m' : Memory) (a : Nat) (v : Word), m.memWrite32 a v = some m' → m'.memRead32 a = some v) ∧
  (∀ (i : Instr) (s t : State) (cur : Word), exec i s = .next t → t.status = some .ok → s.counter = some cur →
    t.counter = some (apply cur i))

/-- 10_state.md R22: the counter is the little-endian value of bytes 0 to 3 of SB, provided SB has four bytes. -/
def Obligations.CounterIsTheFirstFourBytes : Prop :=
  ∀ s : State,
    (∀ b0 b1 b2 b3 : Byte, s.sb.read 0 = some b0 → s.sb.read 1 = some b1 → s.sb.read 2 = some b2 →
      s.sb.read 3 = some b3 → s.counter = some (le32 b0 b1 b2 b3)) ∧
    (s.sb.len < 4 → s.counter = none) ∧
    (4 ≤ s.sb.len → ∃ c, s.counter = some c)

/-! ### The four instructions: result and completion -/

/-- 40_counter_ops.md R81, whole: encoding, completion, and NEXT = (CUR + v) mod 2^32, with no error reported. -/
def Obligations.IncrementWrapsModuloTwoToThe32 : Prop :=
  ∀ (v cur : Word) (s : State), s.stateLenOk = true → s.counter = some cur →
    encode (.increment v) = 0x00 :: le32Bytes v ∧
    ∃ t next, exec (.increment v) s = .next t ∧ t.status = some .ok ∧ t.counter = some next ∧
      next.toNat = (cur.toNat + v.toNat) % 2 ^ 32

/-- 40_counter_ops.md R82, whole: encoding, completion, and NEXT = 0 where v > CUR, CUR - v elsewhere. -/
def Obligations.DecrementClampsAtZero : Prop :=
  ∀ (v cur : Word) (s : State), s.stateLenOk = true → s.counter = some cur →
    encode (.decrement v) = 0x01 :: le32Bytes v ∧
    ∃ t next, exec (.decrement v) s = .next t ∧ t.status = some .ok ∧ t.counter = some next ∧
      next.toNat = if v.toNat > cur.toNat then 0 else cur.toNat - v.toNat

/-- 40_counter_ops.md R83, all but the clause it marks as derived (a short buffer, which `UnacceptedBufferAborts`
states): encoding, completion, and NEXT = 0 whatever CUR is. -/
def Obligations.ResetSetsTheCounterToZero : Prop :=
  ∀ s : State, s.stateLenOk = true →
    encode .reset = [0x03] ∧
    (∀ (e : DecodeError) (trailing : List Byte), decode e (encode .reset ++ trailing) = .ok .reset) ∧
    ∃ t, exec .reset s = .next t ∧ t.status = some .ok ∧ t.counter = some 0

/-- 40_counter_ops.md R84, all but the clause it marks as derived (a short buffer, which `UnacceptedBufferAborts`
states): encoding, completion, and NEXT = v whatever CUR is. -/
def Obligations.UpdateLoadsTheOperand : Prop :=
  ∀ (v : Word) (s : State), s.stateLenOk = true →
    encode (.update v) = 0x02 :: le32Bytes v ∧
    ∃ t, exec (.update v) s = .next t ∧ t.status = some .ok ∧ t.counter = some v

/-- 10_state.md R35: the counter is always in range, and a Decrement that succeeds never raises it, so no subtraction
wraps into the range. -/
def Obligations.CounterStaysInRange : Prop :=
  ∀ (i : Instr) (s t : State) (next : Word), exec i s = .next t → t.counter = some next →
    next.toNat ≤ 2 ^ 32 - 1 ∧
    (∀ v cur, i = .decrement v → s.counter = some cur → next.toNat ≤ cur.toNat)

/-- 10_state.md R24 with the parameter P_STATE_LEN_EXACT (the spec's decision 92 D5), and the derived clauses of
40_counter_ops.md R83, R84: which lengths of SB are accepted, and that with any other every instruction, Reset and
Update too, aborts with StateDeserializationError and changes nothing else. -/
def Obligations.UnacceptedBufferAborts : Prop :=
  ∀ (i : Instr) (s : State),
    (s.stateLenOk = true ↔ if s.params.stateLenExact = true then s.sb.len = 4 else 4 ≤ s.sb.len) ∧
    (s.stateLenOk = false →
      exec i s = .next (s.withStatus (some (.aborted .stateDeserializationError))))

/-! ### What an instruction writes and what it leaves -/

/-- 10_state.md R23: an invocation that succeeds leaves `le32_bytes(NEXT)` in SB[0..3], whether or not NEXT differs from
the value read; one that does not succeed writes nothing. -/
def Obligations.WriteBackOfEverySuccess : Prop :=
  ∀ (i : Instr) (s t : State), exec i s = .next t →
    (t.status = some .ok → ∃ cur, s.counter = some cur ∧
      ∀ k, k < 4 → t.sb.read (counterOffset + k) = (le32Bytes (apply cur i))[k]?) ∧
    (t.status ≠ some .ok → t.sb = s.sb)

/-- The frame of all four instructions (10_state.md R25, whose preserved bytes are the spec's decision 92 D6; R20, R28,
R29: there is no other state): everything but STATUS and the four bytes at the counter's offset is unchanged. -/
def Obligations.InstructionsTouchOnlyCounterAndStatus : Prop :=
  ∀ (i : Instr) (s t : State), exec i s = .next t → SameOutsideFourBytes counterOffset s t

/-- 20_memory.md R45: an invocation's only effect on SB is one commit of four bytes at the counter's offset, or none at
all; there is no partial application. -/
def Obligations.InvocationCommitsOnceOrNotAtAll : Prop :=
  ∀ (s t : State) (inv : Invocation) (rest : List Invocation), s.pending = inv :: rest → step s = .next t →
    t.sb = handedOver s inv ∨ ∃ v, (handedOver s inv).memWrite32 counterOffset v = some t.sb

/-! ### Errors -/

/-- 60_exceptions.md R107: the caller observes either the counter updated to its new value or the invocation rejected
with a reason and SB as it was; and a malformed instruction is always rejected. The last clause also says WHICH error a
failed decode reports: the decode error even when the state buffer is bad too, which is the spec's decision 92 D7 (log
entry 12), and for an empty buffer the parameter of 92 D3 (log entry 2). So the statement is derived. -/
def Obligations.CallerSeesAnUpdateOrARejection : Prop :=
  ∀ (s t : State) (inv : Invocation) (rest : List Invocation), s.pending = inv :: rest → step s = .next t →
    ((∃ i cur, decode s.params.emptyInstrError inv.ib = .ok i ∧
        (handedOver s inv).memRead32 counterOffset = some cur ∧
        t.status = some .ok ∧ t.counter = some (apply cur i)) ∨
      (∃ e, t.status = some (.aborted e) ∧ t.sb = handedOver s inv)) ∧
    (∀ e, decode s.params.emptyInstrError inv.ib = .error e → t.status = some (.aborted (decodeErrorStatus e)))

/-- 60_exceptions.md R104: an invocation that raises any error ends with SB as it was handed over, the error on STATUS,
and nothing else saved or changed. -/
def Obligations.AbortLeavesTheBufferUnchanged : Prop :=
  ∀ (s t : State) (inv : Invocation) (rest : List Invocation) (e : InvocationError),
    s.pending = inv :: rest → step s = .next t → t.status = some (.aborted e) →
    t = (s.accept inv rest).withStatus (some (.aborted e)) ∧
    (∀ a, t.sb.read a = (handedOver s inv).read a)

/-- 60_exceptions.md R106: an invocation is never retried, and what the last one reported has no influence on the next. -/
def Obligations.EveryInvocationStartsAfresh : Prop :=
  ∀ (s t : State) (inv : Invocation) (rest : List Invocation), s.pending = inv :: rest → step s = .next t →
    t.pending = rest ∧ ∀ status, step (t.withStatus status) = step t

/-- 60_exceptions.md R102 (derived) and R105 (the spec's decision 92 D7): which outcome an invocation reports when
several errors apply. -/
def Obligations.StatusFollowsTheErrorPriority : Prop :=
  ∀ (s : State) (inv : Invocation) (rest : List Invocation), s.pending = inv :: rest →
    ∃ t, step s = .next t ∧
      (inv.ib = [] → t.status = some (.aborted (decodeErrorStatus s.params.emptyInstrError))) ∧
      (∀ opc tail, inv.ib = opc :: tail →
        t.status = some
          (if 4 ≤ opc.toNat then .aborted .unknownOpcode
          else if opc.toNat < 3 ∧ inv.ib.length < 5 then .aborted .truncatedPayload
          else if stateLengthOk s.params (handedOver s inv).len = true then .ok
          else .aborted .stateDeserializationError))

/-- 60_exceptions.md R103 (derived by the spec): no step reports StateSerializationError. -/
def Obligations.SerializationErrorIsNeverRaised : Prop :=
  ∀ s t : State, step s = .next t → t.status ≠ some (.aborted .stateSerializationError)

/-- 60_exceptions.md R101 (the numbering is the spec's decision 92 D2): the codes, which tell the outcomes apart, and
that 5, 6 and 7 are never produced. -/
def Obligations.StatusCodesTellOutcomesApart : Prop :=
  statusCode .ok = 0 ∧ statusCode (.aborted .unknownOpcode) = 1 ∧ statusCode (.aborted .truncatedPayload) = 2 ∧
  statusCode (.aborted .stateDeserializationError) = 3 ∧ statusCode (.aborted .stateSerializationError) = 4 ∧
  (∀ x y, statusCode x = statusCode y → x = y) ∧ ∀ x, (statusCode x).toNat < 5

/-! ### The step -/

/-- 40_counter_ops.md R80 (its order is the spec's decision 92 D7): a step with an invocation whose bytes decode to `i`
is `exec i` on the state in which the host has handed the invocation over: its buffer in place of the old one if it
brings one, the remaining invocations still to come, all else as before. -/
def Obligations.StepRunsTheDecodedInstruction : Prop :=
  ∀ (s : State) (inv : Invocation) (rest : List Invocation) (i : Instr), s.pending = inv :: rest →
    decode s.params.emptyInstrError inv.ib = .ok i → i.wellFormed = true →
    step s = exec i (s.accept inv rest) ∧
    (s.accept inv rest).pending = rest ∧ (s.accept inv rest).params = s.params ∧
    (s.accept inv rest).status = s.status ∧
    (inv.newSb = none → (s.accept inv rest).sb = s.sb) ∧
    (∀ bytes, inv.newSb = some bytes → sbBytes (s.accept inv rest) = bytes)

/-- The model's choice of log entry 3 (DESIGN CHOICE; 10_state.md R21, R29): with no invocation lined up a step changes
nothing, and STATUS holds nothing. -/
def Obligations.WithoutInvocationNothingHappens : Prop :=
  ∀ s : State, s.pending = [] → step s = .next (s.withStatus none)

/-- 40_counter_ops.md R88, 60_exceptions.md R103 (derived) and R108: every step answers a next state; no run stops. -/
def Obligations.EveryStepAnswersANextState : Prop :=
  ∀ s : State, ∃ t, step s = .next t

/-- 40_counter_ops.md R85 (the structure is the spec's decision 92 D1 and not normative): the ALU drawn as an adder, a
subtractor with borrow and a mux computes `apply`; the borrow is set exactly when the operand exceeds the counter, and
the carry exactly when the sum does not fit 32 bits. -/
def Obligations.AluMuxComputesApply : Prop :=
  (∀ (cur : Word) (i : Instr) (x : Word), (instrOperand i).getD x = x → aluMux i.kind cur x = apply cur i) ∧
  (∀ cur v : Word, (aluBorrow cur v = true ↔ v.toNat > cur.toNat) ∧
    (aluCarry cur v = true ↔ 2 ^ 32 ≤ cur.toNat + v.toNat))

/-! ### The whole machine -/

/-- The buffer's canonical form, the model's own (log entry 8), is kept by every step from every state that has it. -/
def Obligations.StepKeepsTheCanonicalForm : Prop :=
  ∀ s t : State, StateInv s → step s = .next t → StateInv t

/-- 10_state.md R34, 00_scope.md R7 (the spec's decisions 92 D3, D5, D12) and log entry 1 (the buffer's first contents,
the model's choice): the state after reset. -/
def Obligations.ResetState : Prop :=
  StateInv State.reset ∧ State.reset.status = none ∧ State.reset.pending = [] ∧
  State.reset.params.emptyInstrError = .truncatedPayload ∧ State.reset.params.stateLenExact = false ∧
  sbBytes State.reset = [0, 0, 0, 0] ∧ State.reset.counter = some 0

/-- 10_state.md R34 (the spec's decision 92 D12): for every INIT_STATE the machine starts with exactly these bytes, in
canonical form, and the counter they hold. -/
def Obligations.EveryInitStateIsTakenUp : Prop :=
  ∀ (p : Params) (bytes : List Byte),
    StateInv (stateAtStart p bytes) ∧ sbBytes (stateAtStart p bytes) = bytes ∧
    (∀ b0 b1 b2 b3 rest, bytes = b0 :: b1 :: b2 :: b3 :: rest →
      (stateAtStart p bytes).counter = some (le32 b0 b1 b2 b3))

/-- The canonical form does its work (log entry 8): two buffers in it that read alike are the same data. -/
def Obligations.CanonicalBuffersThatReadAlikeAreEqual : Prop :=
  ∀ m m' : Memory, m.wf = true → m'.wf = true → m.len = m'.len → (∀ a, m.read a = m'.read a) → m = m'

/-- 40_counter_ops.md R80 (its order is the spec's decision 92 D7), the headline: from every state with an invocation to
run, a step is `Invoke(IB, SB)` on byte sequences: the same STATUS and the same bytes of SB, and the model's memory adds
nothing. -/
def Obligations.StepRefinesInvoke : Prop :=
  ∀ (s : State) (inv : Invocation) (rest : List Invocation), s.pending = inv :: rest →
    ∃ t status, step s = .next t ∧ t.pending = rest ∧ t.params = s.params ∧ t.status = some status ∧
      (status, sbBytes t) = invokeBytes s.params inv.ib (handedBytes (sbBytes s) inv)

/-- 20_memory.md R48 (the host's exclusion is its duty, 92 D17) and 70_reset_and_hazards.md R134 (derived): from every
state, running the whole queue leaves SB as the sequence of `Invoke`s does, each reading what the one before it left. -/
def Obligations.QueueRunIsTheSequenceOfInvokes : Prop :=
  ∀ s : State, ∃ t, Host.Core.run Sys2Proof.core s.pending.length s = .next t ∧
    t.pending = [] ∧ t.params = s.params ∧ sbBytes t = runProgram s.params (sbBytes s) s.pending

/-- 10_state.md R32 (derived by the spec): the outcome of an invocation is a function of (IB, SB) and the parameters
alone: states that agree on these, whatever else they hold, report the same STATUS and leave the same bytes. -/
def Obligations.OutcomeDependsOnTheBuffersAlone : Prop :=
  ∀ (s s' : State) (inv inv' : Invocation) (rest rest' : List Invocation),
    s.pending = inv :: rest → s'.pending = inv' :: rest' → inv.ib = inv'.ib → s.params = s'.params →
    (handedOver s inv).bytes = (handedOver s' inv').bytes →
    ∃ t t', step s = .next t ∧ step s' = .next t' ∧ t.status = t'.status ∧ sbBytes t = sbBytes t'
end

