-- ==== Sys2Proof/Laws/Memory.lean ====
section
/-! SUPPORT. The laws of the persisted-state buffer: reading after writing, and that every operation keeps the canonical
form. The reading laws hold for every cell list, canonical or not. -/
namespace Sys2Proof.Machine

/-! ### Cells -/

theorem lookupCell_eraseCell (cells : List Host.Cell) (a c : Nat) :
    lookupCell (eraseCell cells a) c = if c = a then unlistedByte else lookupCell cells c := by
  induction cells with
  | nil => simp [eraseCell, lookupCell]
  | cons head rest ih =>
    obtain ⟨k, b⟩ := head
    by_cases hk : k = a
    · subst hk
      by_cases hc : c = k
      · simpa [eraseCell, hc] using ih
      · simp [eraseCell, lookupCell, ih, hc, Ne.symm hc]
    · by_cases hc : c = a
      · subst hc
        simp [eraseCell, lookupCell, hk, ih]
      · simp [eraseCell, lookupCell, hk, hc, ih]

theorem eraseCell_free (cells : List Host.Cell) (a : Nat) : ∀ c ∈ eraseCell cells a, c.1 ≠ a := by
  induction cells with
  | nil => simp [eraseCell]
  | cons head rest ih =>
    obtain ⟨k, b⟩ := head
    by_cases hk : k = a
    · simpa [eraseCell, hk] using ih
    · simpa [eraseCell, hk] using ih

theorem lookupCell_insertCell (cells : List Host.Cell) (a : Nat) (b : Byte) (c : Nat)
    (free : ∀ x ∈ cells, x.1 ≠ a) :
    lookupCell (insertCell cells a b) c = if c = a then b else lookupCell cells c := by
  induction cells with
  | nil =>
    by_cases hc : c = a
    · simp [insertCell, lookupCell, hc]
    · simp [insertCell, lookupCell, hc, Ne.symm hc]
  | cons head rest ih =>
    obtain ⟨k, x⟩ := head
    have hk : k ≠ a := free (k, x) (by simp)
    have ih := ih fun y hy => free y (by simp [hy])
    by_cases hlt : a < k
    · by_cases hc : c = a
      · simp [insertCell, hlt, lookupCell, hc]
      · simp [insertCell, hlt, lookupCell, hc, Ne.symm hc]
    · by_cases hc : c = a
      · subst hc
        simp [insertCell, hlt, lookupCell, hk, ih]
      · simp [insertCell, hlt, lookupCell, hc, ih]

theorem lookupCell_setCell (cells : List Host.Cell) (a : Nat) (b : Byte) (c : Nat) :
    lookupCell (setCell cells a b) c = if c = a then b else lookupCell cells c := by
  by_cases hb : b = unlistedByte
  · simp [setCell, hb, lookupCell_eraseCell]
  · by_cases hc : c = a <;>
      simp [setCell, hb, lookupCell_insertCell _ _ _ _ (eraseCell_free cells a), lookupCell_eraseCell, hc]

/-! ### The canonical form of cells -/

theorem cellsCanonical_weaken {len lo lo' : Nat} (h : lo' ≤ lo) {cells : List Host.Cell}
    (wf : cellsCanonical len lo cells = true) : cellsCanonical len lo' cells = true := by
  cases cells with
  | nil => rfl
  | cons head rest =>
    obtain ⟨k, b⟩ := head
    simp only [cellsCanonical, Bool.and_eq_true, decide_eq_true_eq] at wf ⊢
    exact ⟨⟨⟨by omega, wf.1.1.2⟩, wf.1.2⟩, wf.2⟩

theorem cellsCanonical_eraseCell {len : Nat} (a : Nat) :
    ∀ {lo : Nat} {cells : List Host.Cell}, cellsCanonical len lo cells = true →
      cellsCanonical len lo (eraseCell cells a) = true
  | _, [], _ => rfl
  | lo, (k, b) :: rest, wf => by
    simp only [cellsCanonical, Bool.and_eq_true, decide_eq_true_eq] at wf
    have ih := cellsCanonical_eraseCell a wf.2
    by_cases hk : k = a
    · have : eraseCell ((k, b) :: rest) a = eraseCell rest a := by simp [eraseCell, hk]
      rw [this]
      exact cellsCanonical_weaken (by omega) ih
    · have : eraseCell ((k, b) :: rest) a = (k, b) :: eraseCell rest a := by simp [eraseCell, hk]
      rw [this]
      simp only [cellsCanonical, Bool.and_eq_true, decide_eq_true_eq]
      exact ⟨wf.1, ih⟩

theorem cellsCanonical_insertCell {len a : Nat} {b : Byte} (ha : a < len) (hb : b ≠ unlistedByte) :
    ∀ {lo : Nat} {cells : List Host.Cell}, lo ≤ a → (∀ x ∈ cells, x.1 ≠ a) → cellsCanonical len lo cells = true →
      cellsCanonical len lo (insertCell cells a b) = true
  | lo, [], hlo, _, _ => by simp [insertCell, cellsCanonical, hlo, ha, hb]
  | lo, (k, x) :: rest, hlo, free, wf => by
    have hk : k ≠ a := free (k, x) (by simp)
    simp only [cellsCanonical, Bool.and_eq_true, decide_eq_true_eq] at wf
    by_cases hlt : a < k
    · simp only [insertCell, hlt, if_true, cellsCanonical, Bool.and_eq_true, decide_eq_true_eq]
      exact ⟨⟨⟨hlo, ha⟩, hb⟩, ⟨⟨hlt, wf.1.1.2⟩, wf.1.2⟩, wf.2⟩
    · simp only [insertCell, hlt, if_false, cellsCanonical, Bool.and_eq_true, decide_eq_true_eq]
      exact ⟨wf.1, cellsCanonical_insertCell ha hb (by omega) (fun y hy => free y (by simp [hy])) wf.2⟩

theorem cellsCanonical_setCell {len a : Nat} {b : Byte} (ha : a < len) {cells : List Host.Cell}
    (wf : cellsCanonical len 0 cells = true) : cellsCanonical len 0 (setCell cells a b) = true := by
  by_cases hb : b = unlistedByte
  · simpa [setCell, hb] using cellsCanonical_eraseCell a wf
  · simpa [setCell, hb] using
      cellsCanonical_insertCell ha hb (Nat.zero_le a) (eraseCell_free cells a) (cellsCanonical_eraseCell a wf)

theorem cellsCanonical_cellsOfBytes (len : Nat) :
    ∀ (a : Nat) (bytes : List Byte), a + bytes.length ≤ len → cellsCanonical len a (cellsOfBytes a bytes) = true
  | _, [], _ => rfl
  | a, b :: rest, h => by
    simp only [List.length_cons] at h
    have ih := cellsCanonical_cellsOfBytes len (a + 1) rest (by omega)
    by_cases hb : b = unlistedByte
    · simp only [cellsOfBytes, hb, if_true]
      exact cellsCanonical_weaken (by omega) ih
    · simp only [cellsOfBytes, hb, if_false, cellsCanonical, Bool.and_eq_true, decide_eq_true_eq]
      exact ⟨⟨⟨Nat.le_refl a, by omega⟩, hb⟩, ih⟩

/-! ### Buffers -/

@[simp] theorem Memory.setByte_len (m : Memory) (a : Nat) (b : Byte) : (m.setByte a b).len = m.len := rfl

theorem Memory.byteAt_setByte (m : Memory) (a : Nat) (b : Byte) (c : Nat) :
    (m.setByte a b).byteAt c = if c = a then b else m.byteAt c :=
  lookupCell_setCell m.cells a b c

theorem Memory.wf_setByte {m : Memory} {a : Nat} {b : Byte} (ha : a < m.len) (wf : m.wf = true) :
    (m.setByte a b).wf = true :=
  cellsCanonical_setCell ha wf

@[simp] theorem Memory.setBytes_len (m : Memory) (a : Nat) (bytes : List Byte) : (m.setBytes a bytes).len = m.len := by
  induction bytes generalizing m a with
  | nil => rfl
  | cons b rest ih => simp [Memory.setBytes, ih]

theorem Memory.byteAt_setBytes_outside (m : Memory) (a : Nat) (bytes : List Byte) {c : Nat}
    (h : c < a ∨ a + bytes.length ≤ c) : (m.setBytes a bytes).byteAt c = m.byteAt c := by
  induction bytes generalizing m a with
  | nil => rfl
  | cons b rest ih =>
    simp only [List.length_cons] at h
    rw [Memory.setBytes, ih _ _ (by omega), Memory.byteAt_setByte, if_neg (by omega)]

theorem Memory.byteAt_setBytes_inside (m : Memory) (a : Nat) (bytes : List Byte) {k : Nat} (h : k < bytes.length) :
    (m.setBytes a bytes).byteAt (a + k) = bytes[k] := by
  induction bytes generalizing m a k with
  | nil => simp at h
  | cons b rest ih =>
    cases k with
    | zero => rw [Memory.setBytes, Memory.byteAt_setBytes_outside _ _ _ (by omega), Memory.byteAt_setByte]; simp
    | succ k =>
      have := ih (m.setByte a b) (a + 1) (k := k) (by simpa using h)
      rw [Memory.setBytes, show a + (k + 1) = a + 1 + k by omega, this, List.getElem_cons_succ]

theorem Memory.wf_setBytes {m : Memory} {a : Nat} {bytes : List Byte} (h : a + bytes.length ≤ m.len)
    (wf : m.wf = true) : (m.setBytes a bytes).wf = true := by
  induction bytes generalizing m a with
  | nil => exact wf
  | cons b rest ih =>
    simp only [List.length_cons] at h
    exact ih (by rw [Memory.setByte_len]; omega) (Memory.wf_setByte (by omega) wf)

theorem Memory.wf_ofBytes (bytes : List Byte) : (Memory.ofBytes bytes).wf = true :=
  cellsCanonical_cellsOfBytes bytes.length 0 bytes (by omega)

@[simp] theorem Memory.ofBytes_len (bytes : List Byte) : (Memory.ofBytes bytes).len = bytes.length := rfl

theorem lookupCell_cellsOfBytes (a : Nat) (bytes : List Byte) (c : Nat) :
    lookupCell (cellsOfBytes a bytes) c = if a ≤ c then bytes.getD (c - a) unlistedByte else unlistedByte := by
  induction bytes generalizing a with
  | nil => simp [cellsOfBytes, lookupCell]
  | cons b rest ih =>
    by_cases hc : c = a
    · subst hc
      by_cases hb : b = unlistedByte
      · simp [cellsOfBytes, hb, ih]
      · simp [cellsOfBytes, hb, lookupCell]
    · have skip : lookupCell (cellsOfBytes a (b :: rest)) c = lookupCell (cellsOfBytes (a + 1) rest) c := by
        by_cases hb : b = unlistedByte <;> simp [cellsOfBytes, hb, lookupCell, Ne.symm hc]
      rw [skip, ih]
      by_cases hlt : a < c
      · simp [show a + 1 ≤ c by omega, show a ≤ c by omega, show c - a = c - (a + 1) + 1 by omega]
      · simp [show ¬ a + 1 ≤ c by omega, show ¬ a ≤ c by omega]

theorem Memory.byteAt_ofBytes (bytes : List Byte) (a : Nat) :
    (Memory.ofBytes bytes).byteAt a = bytes.getD a unlistedByte := by
  simpa [Memory.byteAt, Memory.ofBytes] using lookupCell_cellsOfBytes 0 bytes a

@[simp] theorem Memory.length_bytes (m : Memory) : m.bytes.length = m.len := by
  simp [Memory.bytes]

theorem Memory.getElem_bytes (m : Memory) (a : Nat) (h : a < m.bytes.length) : m.bytes[a] = m.byteAt a := by
  simp [Memory.bytes]

theorem Memory.read_of_lt {m : Memory} {a : Nat} (h : a < m.len) : m.read a = some (m.byteAt a) :=
  if_pos h

theorem Memory.read_of_ge {m : Memory} {a : Nat} (h : m.len ≤ a) : m.read a = none :=
  if_neg (by omega)

theorem Memory.read_eq_getElem (m : Memory) (a : Nat) : m.read a = m.bytes[a]? := by
  by_cases h : a < m.len
  · rw [List.getElem?_eq_getElem (by simpa using h), Memory.getElem_bytes]
    simp [Memory.read, h]
  · rw [List.getElem?_eq_none (by simpa using h)]
    simp [Memory.read, h]

/-- What `MemWrite(a, 4, v)` can do: it has room, and then it keeps the length, puts the four bytes of `v` at `a` and
leaves every other byte. -/
theorem Memory.memWrite32_spec {m m' : Memory} {a : Nat} {v : Word} (h : m.memWrite32 a v = some m') :
    a + 4 ≤ m.len ∧ m'.len = m.len ∧
      (∀ k, (hk : k < 4) → m'.byteAt (a + k) = (le32Bytes v)[k]'(by simpa [le32Bytes] using hk)) ∧
      (∀ c, c < a ∨ a + 4 ≤ c → m'.byteAt c = m.byteAt c) ∧
      (m.wf = true → m'.wf = true) := by
  have len4 : (le32Bytes v).length = 4 := rfl
  by_cases room : a + 4 ≤ m.len
  · simp only [Memory.memWrite32, room, if_true, Option.some.injEq] at h
    subst h
    refine ⟨room, by simp, fun k hk => ?_, fun c hc => ?_, Memory.wf_setBytes (by omega)⟩
    · exact Memory.byteAt_setBytes_inside m a _ (by omega)
    · exact Memory.byteAt_setBytes_outside m a _ (by omega)
  · simp [Memory.memWrite32, room] at h

/-- `MemWrite` finds room exactly where `MemRead` finds bytes. -/
theorem Memory.memWrite32_of_room {m : Memory} {a : Nat} (v : Word) (room : a + 4 ≤ m.len) :
    m.memWrite32 a v = some (m.setBytes a (le32Bytes v)) := by
  simp [Memory.memWrite32, room]

theorem Memory.memRead32_of_room {m : Memory} {a : Nat} (room : a + 4 ≤ m.len) :
    m.memRead32 a = some (le32 (m.byteAt a) (m.byteAt (a + 1)) (m.byteAt (a + 2)) (m.byteAt (a + 3))) := by
  simp [Memory.memRead32, room]

end Sys2Proof.Machine
end

