-- ==== Sys2Proof/Laws/State.lean ====
section
/-! SUPPORT. What each update of the state leaves in each field, true by definition. -/
namespace Sys2Proof.Machine

@[simp] theorem State.withStatus_params (s : State) (x : Option Status) : (s.withStatus x).params = s.params := rfl
@[simp] theorem State.withStatus_sb (s : State) (x : Option Status) : (s.withStatus x).sb = s.sb := rfl
@[simp] theorem State.withStatus_pending (s : State) (x : Option Status) : (s.withStatus x).pending = s.pending := rfl
@[simp] theorem State.withStatus_status (s : State) (x : Option Status) : (s.withStatus x).status = x := rfl

@[simp] theorem State.withSb_params (s : State) (m : Memory) : (s.withSb m).params = s.params := rfl
@[simp] theorem State.withSb_sb (s : State) (m : Memory) : (s.withSb m).sb = m := rfl
@[simp] theorem State.withSb_pending (s : State) (m : Memory) : (s.withSb m).pending = s.pending := rfl
@[simp] theorem State.withSb_status (s : State) (m : Memory) : (s.withSb m).status = s.status := rfl

section Accept

variable (s : State) (inv : Invocation) (rest : List Invocation)

@[simp] theorem State.accept_params : (s.accept inv rest).params = s.params := rfl
@[simp] theorem State.accept_sb : (s.accept inv rest).sb = handedOver s inv := rfl
@[simp] theorem State.accept_pending : (s.accept inv rest).pending = rest := rfl
@[simp] theorem State.accept_status : (s.accept inv rest).status = s.status := rfl

end Accept

section Fetch

variable (s : State) (nbits w : Nat)

@[simp] theorem State.withFetchWord_params : (s.withFetchWord nbits w).params = s.params := rfl
@[simp] theorem State.withFetchWord_sb : (s.withFetchWord nbits w).sb = s.sb := rfl
@[simp] theorem State.withFetchWord_status : (s.withFetchWord nbits w).status = s.status := rfl
@[simp] theorem State.withFetchWord_pending :
    (s.withFetchWord nbits w).pending = { ib := tableBytes nbits w, newSb := none } :: s.pending := rfl

end Fetch

/-- The machine after reset is the machine at the start with the defaults and INIT_STATE = four zero bytes. -/
theorem reset_eq_stateAtStart : State.reset = stateAtStart Params.default [0, 0, 0, 0] := rfl

end Sys2Proof.Machine
end

