-- ==== Sys2Proof/Laws/Ops.lean ====
section
/-! SUPPORT. What the shared operations can do, said once. -/
namespace Sys2Proof.Machine

theorem four_le_of_stateLengthOk {p : Params} {m : Nat} (h : stateLengthOk p m = true) : 4 ≤ m := by
  unfold stateLengthOk minStateBufLen at h
  split at h <;> simp at h <;> omega

theorem State.room_of_stateLenOk {s : State} (h : s.stateLenOk = true) : counterOffset + 4 ≤ s.sb.len := by
  have := four_le_of_stateLengthOk h
  simp [counterOffset]
  omega

theorem raise_eq (e : InvocationError) (s : State) : raise e s = .next (s.withStatus (some (.aborted e))) := rfl

theorem idle_eq (s : State) : idle s = .next (s.withStatus none) := rfl

/-- With an accepted buffer the datapath reads the counter, writes the next value over it and returns OK. -/
theorem runDecoded_of_stateLenOk (nextOf : Word → Word) {s : State} (h : s.stateLenOk = true) :
    ∃ cur sb, s.counter = some cur ∧ s.sb.memWrite32 counterOffset (nextOf cur) = some sb ∧
      runDecoded nextOf s = .next ((s.withSb sb).withStatus (some .ok)) := by
  have room := State.room_of_stateLenOk h
  have long : ¬ s.sb.len < minStateBufLen := by simpa [counterOffset, minStateBufLen] using room
  refine ⟨_, _, Memory.memRead32_of_room room, Memory.memWrite32_of_room _ room, ?_⟩
  simp [runDecoded, h, Memory.memRead32_of_room room, Memory.memWrite32_of_room _ room, long, returnOk]

/-- With a buffer it does not accept the datapath aborts before the read. -/
theorem runDecoded_of_not_stateLenOk (nextOf : Word → Word) {s : State} (h : s.stateLenOk = false) :
    runDecoded nextOf s = .next (s.withStatus (some (.aborted .stateDeserializationError))) := by
  simp [runDecoded, h, raise]

/-- Every instruction is the one datapath with its own next-value function. -/
theorem exec_eq_runDecoded (i : Instr) (s : State) : exec i s = runDecoded (fun cur => apply cur i) s := by
  cases i <;> rfl

/-- Everything `step` can do: idle, abort a failed decode, or run the decoded instruction. -/
theorem step_cases (s : State) :
    (s.pending = [] ∧ step s = .next (s.withStatus none)) ∨
    (∃ inv rest e, s.pending = inv :: rest ∧ decode s.params.emptyInstrError inv.ib = .error e ∧
      step s = .next ((s.accept inv rest).withStatus (some (.aborted (decodeErrorStatus e))))) ∨
    (∃ inv rest i, s.pending = inv :: rest ∧ decode s.params.emptyInstrError inv.ib = .ok i ∧
      step s = exec i (s.accept inv rest)) := by
  cases hp : s.pending with
  | nil => exact .inl ⟨rfl, by simp [step, hp, idle]⟩
  | cons inv rest =>
    cases hd : decode s.params.emptyInstrError inv.ib with
    | error e => exact .inr (.inl ⟨inv, rest, e, rfl, hd, by simp [step, hp, hd, raise]⟩)
    | ok i => exact .inr (.inr ⟨inv, rest, i, rfl, hd, by simp [step, hp, hd]⟩)

end Sys2Proof.Machine
end

