-- ==== Sys2Proof/Laws/PerInstr.lean ====
section
/-! SUPPORT. Statements about every instruction as syntax, one lemma per constructor. -/

/-- The shape of an encoding: the first byte selects the instruction's kind in the opcode mux, the length is that of the
kind's format, and the term is well formed (30_encoding.md R61, R62, R72). -/
def Sys2Proof.Laws.EncodeShape.Statement (i : Sys2Proof.Instr) : Prop :=
  (∃ rest, Sys2Proof.encode i = i.kind.opcode :: rest) ∧ Sys2Proof.opcodeMux i.kind.opcode = some i.kind ∧
    (Sys2Proof.encode i).length = i.kind.formatLength ∧ i.wellFormed = true

theorem Sys2Proof.Laws.EncodeShape.increment (v : Sys2Proof.Word) :
    Sys2Proof.Laws.EncodeShape.Statement (.increment v) :=
  ⟨⟨_, rfl⟩, rfl, rfl, by simpa [Sys2Proof.Instr.wellFormed, Sys2Proof.operandInRange] using v.isLt⟩

theorem Sys2Proof.Laws.EncodeShape.decrement (v : Sys2Proof.Word) :
    Sys2Proof.Laws.EncodeShape.Statement (.decrement v) :=
  ⟨⟨_, rfl⟩, rfl, rfl, by simpa [Sys2Proof.Instr.wellFormed, Sys2Proof.operandInRange] using v.isLt⟩

theorem Sys2Proof.Laws.EncodeShape.update (v : Sys2Proof.Word) :
    Sys2Proof.Laws.EncodeShape.Statement (.update v) :=
  ⟨⟨_, rfl⟩, rfl, rfl, by simpa [Sys2Proof.Instr.wellFormed, Sys2Proof.operandInRange] using v.isLt⟩

theorem Sys2Proof.Laws.EncodeShape.reset : Sys2Proof.Laws.EncodeShape.Statement .reset :=
  ⟨⟨_, rfl⟩, rfl, rfl, rfl⟩
end

