-- ==== Sys2Proof/Tests/Slice0.lean ====
section
/-! SUPPORT. The model's own tests, one step each. The expected values are those of spec/95_test_vectors.md (the vector's
name stands in each comment) or written out from the rule named; and a witness for every statement that has hypotheses. -/
namespace Sys2Proof.Tests

open Sys2Proof.Machine Sys2Proof.Safety

/-! ### Helpers -/

/-- A machine with these parameters and this buffer, on which the host makes one invocation. -/
def machine (p : Params) (sb ib : List Byte) : State :=
  { stateAtStart p sb with pending := [{ ib := ib, newSb := none }] }

/-- The parameters with P_STATE_LEN_EXACT = true. -/
def exactLength : Params := { Params.default with stateLenExact := true }

/-- STATUS and SB after an outcome that is a next state. -/
def statusAndBytes : Host.Outcome State Fault Refusal → Option (Option Status × List Byte)
  | .next t => some (t.status, sbBytes t)
  | .fault _ => none
  | .refused _ => none

/-- The counter after an outcome that is a next state. -/
def counterAfter : Host.Outcome State Fault Refusal → Option Word
  | .next t => t.counter
  | .fault _ => none
  | .refused _ => none

/-! ### WellFormed: the largest operand passes, the integer above it is refused (R74, R72) -/

theorem test_operand_range : operandInRange 4294967295 = true ∧ operandInRange 4294967296 = false := by decide

theorem test_wellFormed_largest_operand : (Instr.update 0xFFFFFFFF).wellFormed = true := by decide

/-! ### DEC: words written out from R61 and R63, vectors D-1 to D-19 -/

theorem test_decode_increment : decode .truncatedPayload [0x00, 0xFF, 0xFF, 0xFF, 0xFF] = .ok (.increment 0xFFFFFFFF) := rfl -- D-16
theorem test_decode_decrement : decode .truncatedPayload [0x01, 0x00, 0x00, 0x00, 0x80] = .ok (.decrement 0x80000000) := rfl -- D-17
theorem test_decode_update : decode .truncatedPayload [0x02, 0x01, 0x02, 0x03, 0x04, 0xAA, 0xBB] = .ok (.update 67305985) := rfl -- D-19
theorem test_decode_reset : decode .truncatedPayload [0x03, 0x01, 0x02, 0x03, 0x04, 0x05] = .ok .reset := rfl -- D-9
theorem test_decode_smallest_illegal : decode .truncatedPayload [0x04] = .error .unknownOpcode := rfl -- D-10
theorem test_decode_largest_illegal : decode .truncatedPayload [0xFF, 1, 2, 3, 4] = .error .unknownOpcode := rfl -- D-13
theorem test_decode_one_byte_short : decode .unknownOpcode [0x00, 0x01, 0x02, 0x03] = .error .truncatedPayload := rfl -- D-3
theorem test_decode_empty_default : decode Params.default.emptyInstrError [] = .error .truncatedPayload := rfl -- D-1
theorem test_decode_empty_other : decode .unknownOpcode [] = .error .unknownOpcode := rfl -- D-1, the other value
theorem test_encode_update : encode (.update 0xDEADBEEF) = [0x02, 0xEF, 0xBE, 0xAD, 0xDE] := by decide -- D-15
theorem test_table_word_update : decodeTableWord 40 0x1234567802 = some (.update 0x12345678) := rfl -- R61, bits 39:8
theorem test_table_word_short : decodeTableWord 8 0x01 = some (.decrement 0) := rfl -- bits above nbits are 0
theorem test_assemble_hex :
    assembleLine ['U', 'p', 'd', 'a', 't', 'e', ' ', '0', 'x', '1', 'F'] = some [0x02, 0x1F, 0, 0, 0] := by decide -- R74
theorem test_assemble_reset : assembleLine ['R', 'e', 's', 'e', 't'] = some [0x03] := by decide -- R74
theorem test_assemble_needs_operand : assembleLine ['U', 'p', 'd', 'a', 't', 'e'] = none := by decide -- R74

/-! ### The four instructions, two vectors each -/

theorem test_increment : statusAndBytes (step (machine Params.default [0, 0, 0, 0] [0x00, 48, 0, 0, 0])) =
    some (some .ok, [48, 0, 0, 0]) := by decide -- S1
theorem test_increment_wraps :
    counterAfter (exec (.increment 0xFFFFFFFF) (stateAtStart Params.default [0xFF, 0xFF, 0xFF, 0xFF])) =
      some 0xFFFFFFFE := by decide -- I-6
theorem test_decrement_clamps : statusAndBytes (step (machine Params.default [0x20, 0, 0, 0] [0x01, 100, 0, 0, 0])) =
    some (some .ok, [0, 0, 0, 0]) := by decide -- S3
theorem test_decrement_borrows_across_bytes :
    counterAfter (exec (.decrement 0xFF) (stateAtStart Params.default [0x00, 0x01, 0, 0])) = some 1 := by decide -- S-12
theorem test_update : statusAndBytes (step (machine Params.default [0, 0, 0, 0] [0x02, 0x78, 0x56, 0x34, 0x12])) =
    some (some .ok, [0x78, 0x56, 0x34, 0x12]) := by decide -- W-7
theorem test_update_zero : counterAfter (exec (.update 0) (stateAtStart Params.default [7, 0, 0, 0])) = some 0 := by
  decide -- U-4
theorem test_reset : statusAndBytes (step (machine Params.default [0xE8, 3, 0, 0, 0xAA, 0xBB] [0x03, 0x99, 0x99])) =
    some (some .ok, [0, 0, 0, 0, 0xAA, 0xBB]) := by decide -- P3 step 5
theorem test_reset_reads_state : statusAndBytes (step (machine Params.default [1, 2] [0x03])) =
    some (some (.aborted .stateDeserializationError), [1, 2]) := by decide -- W-3

/-! ### The buffer's length, error priority, the host's hand-over, idling -/

theorem test_longer_buffer : statusAndBytes (step (machine Params.default [5, 0, 0, 0, 0xAA] [0x00, 1, 0, 0, 0])) =
    some (some .ok, [6, 0, 0, 0, 0xAA]) := by decide -- W-1
theorem test_exact_length : statusAndBytes (step (machine exactLength [5, 0, 0, 0, 0xAA] [0x00, 1, 0, 0, 0])) =
    some (some (.aborted .stateDeserializationError), [5, 0, 0, 0, 0xAA]) := by decide -- W-2
theorem test_unknown_opcode_first : statusAndBytes (step (machine Params.default [1, 2] [0x09])) =
    some (some (.aborted .unknownOpcode), [1, 2]) := by decide -- W-4
theorem test_truncated_first : statusAndBytes (step (machine Params.default [] [0x00, 1, 2])) =
    some (some (.aborted .truncatedPayload), []) := by decide -- W-6
theorem test_handed_over_buffer :
    statusAndBytes (step { State.reset with pending := [{ ib := [0x01, 16, 0, 0, 0], newSb := some [0x30, 0, 0, 0] }] }) =
      some (some .ok, [0x20, 0, 0, 0]) := by decide -- S2, the buffer handed over with the invocation
theorem test_idle : statusAndBytes (step State.reset) = some (none, [0, 0, 0, 0]) := by decide -- R34, log entry 3
theorem test_fetch_word : statusAndBytes (step (State.reset.withFetchWord 40 0x3000)) =
    some (some .ok, [0x30, 0, 0, 0]) := by decide -- S1, placed as a table word

/-! ### Witnesses: states and operands that meet the hypotheses of the statements, all together -/

/-- DecodeOfEncodeIsTheInstruction. -/
theorem witness_wellFormed : (Instr.decrement 0x80000000).wellFormed = true := by decide
/-- OpcodeSelectsKindOrFails: each clause, at the values where the clauses meet. -/
theorem witness_opcodes : (0x00 : Byte).toNat = 0 ∧ (0x03 : Byte).toNat = 3 ∧ 4 ≤ (0x04 : Byte).toNat ∧
    4 ≤ (0xFF : Byte).toNat := by decide
/-- OpcodeSelectsKindOrFails, its clause about a buffer that decodes. -/
theorem witness_decodes : decode .truncatedPayload (0x01 :: [1, 0, 0, 0]) = .ok (.decrement 1) := rfl
/-- OperandIsDeserializedLittleEndian: both clauses, four bytes and five. -/
theorem witness_operand_lengths : opcodeMux 0x02 = some .update ∧ Kind.update ≠ .reset ∧
    ((0x02 : Byte) :: [1, 2, 3]).length < 5 ∧ ¬ ((0x02 : Byte) :: [1, 2, 3, 4]).length < 5 := by decide
/-- EmptyBufferReportsTheParameter. -/
theorem witness_empty_buffer : (machine Params.default [0, 0, 0, 0] []).pending = { ib := [], newSb := none } :: [] := rfl
/-- AssemblerTakesExactlyTheOperandsInRange: both clauses at the values where they meet. -/
theorem witness_assembler : Kind.increment ≠ .reset ∧ 2 ^ 32 ≤ 4294967296 ∧ 4294967295 < 2 ^ 32 := by decide
/-- CounterSurvivesSerialization, the buffer clause: a buffer of just four bytes, written. -/
theorem witness_write : (Memory.ofBytes [9, 9, 9, 9]).memWrite32 0 0x00010000 =
    some (Memory.ofBytes [0, 0, 1, 0]) := by decide
/-- CounterSurvivesSerialization (last clause), WriteBackOfEverySuccess, InstructionsTouchOnlyCounterAndStatus,
CounterStaysInRange: an instruction that succeeds, on a buffer of more than four bytes. -/
theorem witness_success :
    exec (.decrement 1) (stateAtStart Params.default [2, 0, 0, 0, 7]) =
      .next ((stateAtStart Params.default [1, 0, 0, 0, 7]).withStatus (some .ok)) ∧
    (stateAtStart Params.default [2, 0, 0, 0, 7]).counter = some 2 ∧
    (stateAtStart Params.default [2, 0, 0, 0, 7]).stateLenOk = true ∧
    (stateAtStart Params.default [1, 0, 0, 0, 7]).counter = some 1 := ⟨rfl, rfl, rfl, rfl⟩
/-- WriteBackOfEverySuccess, its clause about an outcome that is no success. -/
theorem witness_no_success :
    exec .reset (stateAtStart Params.default [1, 2, 3]) =
      .next ((stateAtStart Params.default [1, 2, 3]).withStatus (some (.aborted .stateDeserializationError))) := rfl
/-- CounterIsTheFirstFourBytes: four bytes that are read; and three and four as the lengths where its clauses meet. -/
theorem witness_counter_bytes : (Memory.ofBytes [1, 0, 3, 4]).read 0 = some 1 ∧ (Memory.ofBytes [1, 0, 3, 4]).read 1 = some 0 ∧
    (Memory.ofBytes [1, 0, 3, 4]).read 2 = some 3 ∧ (Memory.ofBytes [1, 0, 3, 4]).read 3 = some 4 ∧
    (Memory.ofBytes [1, 2, 3]).len < 4 ∧ 4 ≤ (Memory.ofBytes [1, 0, 3, 4]).len := by decide
/-- IncrementWrapsModuloTwoToThe32, DecrementClampsAtZero, ResetSetsTheCounterToZero, UpdateLoadsTheOperand. -/
theorem witness_completion : State.reset.stateLenOk = true ∧ State.reset.counter = some 0 := by decide
/-- The same under P_STATE_LEN_EXACT, at a counter where Increment wraps and both branches of Decrement exist. -/
theorem witness_completion_exact : (stateAtStart exactLength [0xFF, 0xFF, 0xFF, 0xFE]).stateLenOk = true ∧
    (stateAtStart exactLength [0xFF, 0xFF, 0xFF, 0xFE]).counter = some 0xFEFFFFFF := by decide
/-- UnacceptedBufferAborts: a buffer of 3 bytes, and one of 5 under P_STATE_LEN_EXACT; 4 is accepted under both. -/
theorem witness_lengths : (stateAtStart Params.default [1, 2, 3]).stateLenOk = false ∧
    (stateAtStart exactLength [1, 2, 3, 4, 5]).stateLenOk = false ∧
    (stateAtStart Params.default [1, 2, 3, 4]).stateLenOk = true ∧
    (stateAtStart exactLength [1, 2, 3, 4]).stateLenOk = true := by decide
/-- AbortLeavesTheBufferUnchanged, EveryInvocationStartsAfresh, StatusFollowsTheErrorPriority,
SerializationErrorIsNeverRaised, StepKeepsTheCanonicalForm, InvocationCommitsOnceOrNotAtAll,
CallerSeesAnUpdateOrARejection (with its last clause, a decode that fails): an invocation that aborts. -/
theorem witness_abort : (machine Params.default [1, 2] [0x09]).pending = { ib := [0x09], newSb := none } :: [] ∧
    step (machine Params.default [1, 2] [0x09]) =
      .next ((stateAtStart Params.default [1, 2]).withStatus (some (.aborted .unknownOpcode))) ∧
    decode Params.default.emptyInstrError [0x09] = .error .unknownOpcode ∧
    StateInv (machine Params.default [1, 2] [0x09]) := ⟨rfl, rfl, rfl, rfl⟩
/-- InvocationCommitsOnceOrNotAtAll, CallerSeesAnUpdateOrARejection: an invocation that succeeds. -/
theorem witness_commit : (machine Params.default [1, 2, 0, 0] [0x03]).pending = { ib := [0x03], newSb := none } :: [] ∧
    step (machine Params.default [1, 2, 0, 0] [0x03]) =
      .next ((stateAtStart Params.default [0, 0, 0, 0]).withStatus (some .ok)) := ⟨rfl, rfl⟩
/-- StatusFollowsTheErrorPriority: an empty buffer for its first clause. -/
theorem witness_empty_priority : statusAndBytes (step (machine Params.default [1, 2] [])) =
    some (some (.aborted .truncatedPayload), [1, 2]) := by decide
/-- StepRunsTheDecodedInstruction, StepRefinesInvoke: an invocation that decodes, with a buffer handed over. -/
theorem witness_step : ∃ s : State, s.pending = [{ ib := [0x03], newSb := some [1, 0, 0, 0] }] ∧
    decode s.params.emptyInstrError [0x03] = .ok .reset ∧ Instr.reset.wellFormed = true :=
  ⟨{ State.reset with pending := [{ ib := [0x03], newSb := some [1, 0, 0, 0] }] }, rfl, rfl, rfl⟩
/-- WithoutInvocationNothingHappens. -/
theorem witness_idle : State.reset.pending = [] := rfl
/-- AluMuxComputesApply: an instruction with an operand and Reset, which has none. -/
theorem witness_alu : (instrOperand (.increment 5)).getD 5 = 5 ∧ (instrOperand .reset).getD 9 = 9 := by decide
/-- EveryInitStateIsTakenUp: an INIT_STATE of four bytes and more. -/
theorem witness_initState : ([1, 2, 3, 4, 5] : List Byte) = 1 :: 2 :: 3 :: 4 :: [5] := rfl
/-- CanonicalBuffersThatReadAlikeAreEqual: two canonical buffers, made differently, that read alike. -/
theorem witness_canonical : (Memory.ofBytes [0, 7]).wf = true ∧ ((Memory.ofBytes [5, 7]).setByte 0 0).wf = true ∧
    (Memory.ofBytes [0, 7]).len = ((Memory.ofBytes [5, 7]).setByte 0 0).len ∧
    ∀ a, (Memory.ofBytes [0, 7]).read a = ((Memory.ofBytes [5, 7]).setByte 0 0).read a :=
  ⟨rfl, rfl, rfl, fun _ => rfl⟩
/-- OutcomeDependsOnTheBuffersAlone: two states that differ in STATUS, in what is still to come, and in how the buffer
comes. -/
theorem witness_two_states :
    let s := machine Params.default [4, 0, 0, 0] [0x03]
    let s' : State := ⟨Params.default, Memory.ofBytes [], [⟨[0x03], some [4, 0, 0, 0]⟩, ⟨[0x09], none⟩], some .ok⟩
    s.pending = ⟨[0x03], none⟩ :: [] ∧ s'.pending = ⟨[0x03], some [4, 0, 0, 0]⟩ :: [⟨[0x09], none⟩] ∧
      s.params = s'.params ∧ (handedOver s ⟨[0x03], none⟩).bytes = (handedOver s' ⟨[0x03], some [4, 0, 0, 0]⟩).bytes := by
  decide

end Sys2Proof.Tests
end

section
/-! PROOFS. The family 10_state.md: reading and writing the counter's four bytes, what an instruction can do to them,
and the statements built on that. -/
namespace Sys2Proof.Machine

/-! ### Four bytes at a time -/

/-- R11's two directions agree: the bytes of a word, assembled again, are the word. -/
theorem le32_wordByte (v : Word) : le32 (wordByte v 0) (wordByte v 1) (wordByte v 2) (wordByte v 3) = v := by
  unfold le32 wordByte
  iterate 3 rw [BitVec.extractLsb'_append_extractLsb'_eq_extractLsb' (by omega)]
  exact BitVec.extractLsb'_eq_self

theorem Memory.read_eq_some_iff {m : Memory} {a : Nat} {b : Byte} :
    m.read a = some b ↔ a < m.len ∧ m.byteAt a = b := by
  simp [Memory.read]

theorem Memory.memRead32_eq_none_iff {m : Memory} {a : Nat} : m.memRead32 a = none ↔ m.len < a + 4 := by
  simp [Memory.memRead32]

theorem Memory.memRead32_of_reads {m : Memory} {a : Nat} {b0 b1 b2 b3 : Byte} (h0 : m.read a = some b0)
    (h1 : m.read (a + 1) = some b1) (h2 : m.read (a + 2) = some b2) (h3 : m.read (a + 3) = some b3) :
    m.memRead32 a = some (le32 b0 b1 b2 b3) := by
  rw [Memory.read_eq_some_iff] at h0 h1 h2 h3
  obtain ⟨room, rfl⟩ := h3
  rw [Memory.memRead32_of_room room, h0.2, h1.2, h2.2]

theorem Memory.read_of_memWrite32 {m m' : Memory} {a k : Nat} {v : Word} (h : m.memWrite32 a v = some m')
    (hk : k < 4) : m'.read (a + k) = (le32Bytes v)[k]? := by
  obtain ⟨room, len, written, -, -⟩ := Memory.memWrite32_spec h
  rw [Memory.read_of_lt (by omega), written k hk, List.getElem?_eq_getElem]

theorem Memory.memRead32_of_memWrite32 {m m' : Memory} {a : Nat} {v : Word} (h : m.memWrite32 a v = some m') :
    m'.memRead32 a = some v := by
  have reads := fun k (hk : k < 4) => Memory.read_of_memWrite32 h hk
  have bytes := Memory.memRead32_of_reads (reads 0 (by omega)) (reads 1 (by omega)) (reads 2 (by omega))
    (reads 3 (by omega))
  exact bytes.trans (congrArg some (le32_wordByte v))

/-! ### The counter -/

@[simp] theorem State.counter_withStatus (s : State) (x : Option Status) : (s.withStatus x).counter = s.counter := rfl

@[simp] theorem State.counter_withSb (s : State) (m : Memory) :
    (s.withSb m).counter = m.memRead32 counterOffset := rfl

theorem nextDecrement_le (v cur : Word) : (nextDecrement v cur).toNat ≤ cur.toNat := by
  unfold nextDecrement
  split
  case isTrue => simp
  case isFalse notBelow =>
    rw [BitVec.toNat_sub_of_le (BitVec.not_lt.mp notBelow)]
    omega

/-- Everything an instruction can do: with an accepted buffer, write the next value over the counter and report OK; with
any other, report the error and write nothing. -/
theorem exec_cases {i : Instr} {s t : State} (h : exec i s = .next t) :
    (∃ cur sb, s.stateLenOk = true ∧ s.counter = some cur ∧
      s.sb.memWrite32 counterOffset (apply cur i) = some sb ∧ t = (s.withSb sb).withStatus (some .ok)) ∨
    (s.stateLenOk = false ∧ t = s.withStatus (some (.aborted .stateDeserializationError))) := by
  rw [exec_eq_runDecoded] at h
  cases accepted : s.stateLenOk with
  | true =>
    obtain ⟨cur, sb, read, written, run⟩ := runDecoded_of_stateLenOk (fun cur => apply cur i) accepted
    exact .inl ⟨cur, sb, rfl, read, written, Host.Outcome.next.inj (h.symm.trans run)⟩
  | false =>
    exact .inr ⟨rfl, Host.Outcome.next.inj (h.symm.trans (runDecoded_of_not_stateLenOk _ accepted))⟩

/-! ### The statements -/

/-- Settles O16: the width gives the range (R35), and a Decrement either writes a clamped
difference or aborts and leaves the counter. -/
theorem counterStaysInRange : Obligations.CounterStaysInRange := by
  intro i s t next run after
  refine ⟨by omega, ?_⟩
  rintro v cur rfl before
  obtain ⟨cur', sb, -, before', written, rfl⟩ | ⟨-, rfl⟩ := exec_cases run
  · obtain rfl : cur = cur' := Option.some.inj (before.symm.trans before')
    obtain rfl : nextDecrement v cur = next :=
      Option.some.inj ((Memory.memRead32_of_memWrite32 written).symm.trans after)
    exact nextDecrement_le v cur
  · obtain rfl : cur = next := Option.some.inj (before.symm.trans after)
    exact Nat.le_refl _

/-- Settles O18: of the two things an instruction can do, success is the write of `apply`'s bytes and the abort keeps
the buffer. -/
theorem writeBackOfEverySuccess : Obligations.WriteBackOfEverySuccess := by
  intro i s t run
  obtain ⟨cur, sb, -, read, written, rfl⟩ | ⟨-, rfl⟩ := exec_cases run
  · exact ⟨fun _ => ⟨cur, read, fun k hk => Memory.read_of_memWrite32 written hk⟩, fun notOk => absurd rfl notOk⟩
  · exact ⟨fun ok => by simp at ok, fun _ => rfl⟩

/-- Settles O11: the counter is the four-byte read at offset 0, which succeeds exactly where there are four bytes. -/
theorem counterIsTheFirstFourBytes : Obligations.CounterIsTheFirstFourBytes := by
  intro s
  exact ⟨fun _ _ _ _ => Memory.memRead32_of_reads, fun short => Memory.memRead32_eq_none_iff.mpr short,
    fun long => ⟨_, Memory.memRead32_of_room long⟩⟩

end Sys2Proof.Machine
end

section
/-! PROOFS. The family 20_memory.md: what a step with an invocation does to the buffer handed over. -/
namespace Sys2Proof.Machine

/-- Everything a step with an invocation to run can do: abort it with its decode error, or run its instruction on the
state in which it was handed over. -/
theorem step_cases_of_pending {s t : State} {inv : Invocation} {rest : List Invocation}
    (queued : s.pending = inv :: rest) (h : step s = .next t) :
    (∃ e, decode s.params.emptyInstrError inv.ib = .error e ∧
      t = (s.accept inv rest).withStatus (some (.aborted (decodeErrorStatus e)))) ∨
    (∃ i, decode s.params.emptyInstrError inv.ib = .ok i ∧ exec i (s.accept inv rest) = .next t) := by
  obtain ⟨none_queued, -⟩ | ⟨inv', rest', e, queued', failed, run⟩ | ⟨inv', rest', i, queued', decoded, run⟩ :=
    step_cases s
  · exact absurd (queued.symm.trans none_queued) (List.cons_ne_nil _ _)
  · obtain ⟨rfl, rfl⟩ := List.cons.inj (queued.symm.trans queued')
    exact .inl ⟨e, failed, Host.Outcome.next.inj (h.symm.trans run)⟩
  · obtain ⟨rfl, rfl⟩ := List.cons.inj (queued.symm.trans queued')
    exact .inr ⟨i, decoded, run.symm.trans h⟩

/-- Settles O20: a failed decode and a refused buffer leave the buffer as handed over, and an instruction that runs
commits its next counter value. -/
theorem invocationCommitsOnceOrNotAtAll : Obligations.InvocationCommitsOnceOrNotAtAll := by
  intro s t inv rest queued run
  obtain ⟨_, -, rfl⟩ | ⟨i, -, ran⟩ := step_cases_of_pending queued run
  · exact .inl rfl
  · obtain ⟨cur, sb, -, -, written, rfl⟩ | ⟨-, rfl⟩ := exec_cases ran
    · exact .inr ⟨apply cur i, written⟩
    · exact .inl rfl

end Sys2Proof.Machine
end

section
/-! PROOFS. The family 30_encoding.md: what the opcode byte alone decides about a decode. -/
namespace Sys2Proof

theorem opcodeMux_eq_none {opc : Byte} (illegal : 4 ≤ opc.toNat) : opcodeMux opc = none := by
  obtain ⟨n, above⟩ := Nat.exists_eq_add_of_le' illegal
  simp [opcodeMux, above]

theorem decode_of_opcodeMux_none (e : DecodeError) {opc : Byte} (rest : List Byte) (h : opcodeMux opc = none) :
    decode e (opc :: rest) = .error .unknownOpcode := by
  simp [decode, h]

theorem decode_of_opcodeMux_reset (e : DecodeError) {opc : Byte} (rest : List Byte)
    (h : opcodeMux opc = some .reset) : decode e (opc :: rest) = .ok .reset := by
  simp [decode, h]

/-- Where the operand is deserialized, the term is the selected constructor on some operand. -/
theorem exists_operand_of_map_eq_ok {operand : Except DecodeError Word} {term : Word → Instr} {i : Instr}
    (h : operand.map term = .ok i) : ∃ v, i = term v := by
  cases operand with
  | error e => cases h
  | ok v => exact ⟨v, (Except.ok.inj h).symm⟩

theorem opcodeMux_of_decode {e : DecodeError} {opc : Byte} {rest : List Byte} {i : Instr}
    (h : decode e (opc :: rest) = .ok i) : opcodeMux opc = some i.kind := by
  cases selected : opcodeMux opc with
  | none => simp [decode_of_opcodeMux_none e rest selected] at h
  | some k =>
    simp only [decode, selected] at h
    cases k with
    | reset => obtain rfl := Except.ok.inj h; rfl
    | increment | decrement | update => obtain ⟨v, rfl⟩ := exists_operand_of_map_eq_ok h; rfl

/-- Settles O3: the mux's map of R65, clause by clause, and the decoder's agreement with it. -/
theorem opcodeSelectsKindOrFails : Obligations.OpcodeSelectsKindOrFails := by
  intro e opc rest
  refine ⟨fun h => ?_, fun h => ?_, fun h => ?_, fun h => ?_, fun _ => opcodeMux_of_decode,
    fun illegal => decode_of_opcodeMux_none e rest (opcodeMux_eq_none illegal)⟩
  all_goals simp [opcodeMux, h]

/-- Settles O5: 0x03 selects Reset in the mux, and that alone decides the decode (R67). -/
theorem resetIgnoresItsTrailingBytes : Obligations.ResetIgnoresItsTrailingBytes :=
  fun e trailing => decode_of_opcodeMux_reset e trailing rfl

end Sys2Proof
end

section
/-! PROOFS. The family 40_counter_ops.md: every instruction completes on an accepted buffer with the counter `apply`
gives, and the value of `apply` for each. -/
namespace Sys2Proof.Machine

/-! ### Completion -/

/-- On an accepted buffer every instruction reads a counter, reports OK and leaves `apply` of the counter read (R80). -/
theorem exec_completes (i : Instr) {s : State} (accepted : s.stateLenOk = true) :
    ∃ cur t, s.counter = some cur ∧ exec i s = .next t ∧ t.status = some .ok ∧ t.counter = some (apply cur i) := by
  obtain ⟨cur, sb, read, written, run⟩ := runDecoded_of_stateLenOk (fun cur => apply cur i) accepted
  refine ⟨cur, _, read, (exec_eq_runDecoded i s).trans run, rfl, ?_⟩
  simpa using Memory.memRead32_of_memWrite32 written

theorem exec_completes_of_counter (i : Instr) {s : State} {cur : Word} (accepted : s.stateLenOk = true)
    (before : s.counter = some cur) :
    ∃ t, exec i s = .next t ∧ t.status = some .ok ∧ t.counter = some (apply cur i) := by
  obtain ⟨cur', t, read, completes⟩ := exec_completes i accepted
  obtain rfl : cur = cur' := Option.some.inj (before.symm.trans read)
  exact ⟨t, completes⟩

/-- The clamp of R82 on unsigned values. -/
theorem toNat_nextDecrement (v cur : Word) :
    (nextDecrement v cur).toNat = if v.toNat > cur.toNat then 0 else cur.toNat - v.toNat := by
  unfold nextDecrement
  by_cases below : cur < v
  · simp [below, BitVec.lt_def.mp below]
  · rw [if_neg below, if_neg (mt BitVec.lt_def.mpr below), BitVec.toNat_sub_of_le (BitVec.not_lt.mp below)]

/-! ### The statements -/

/-- Settles O10: the bytes of a word assemble to it, a four-byte read follows a four-byte write, and of the two things
an instruction can do only the write-back reports OK. -/
theorem counterSurvivesSerialization : Obligations.CounterSurvivesSerialization := by
  refine ⟨fun v => ⟨_, _, _, _, rfl, le32_wordByte v⟩, fun _ _ _ _ => Memory.memRead32_of_memWrite32, ?_⟩
  intro i s t cur run ok before
  obtain ⟨cur', sb, -, read, written, rfl⟩ | ⟨-, rfl⟩ := exec_cases run
  · obtain rfl : cur = cur' := Option.some.inj (before.symm.trans read)
    simpa using Memory.memRead32_of_memWrite32 written
  · simp at ok

/-- Settles O12: Increment completes with the word sum, whose value is the sum modulo 2^32. -/
theorem incrementWrapsModuloTwoToThe32 : Obligations.IncrementWrapsModuloTwoToThe32 := by
  intro v cur s accepted before
  obtain ⟨t, run, ok, after⟩ := exec_completes_of_counter (.increment v) accepted before
  exact ⟨rfl, t, nextIncrement v cur, run, ok, after, BitVec.toNat_add cur v⟩

/-- Settles O13: Decrement completes with the clamped difference. -/
theorem decrementClampsAtZero : Obligations.DecrementClampsAtZero := by
  intro v cur s accepted before
  obtain ⟨t, run, ok, after⟩ := exec_completes_of_counter (.decrement v) accepted before
  exact ⟨rfl, t, nextDecrement v cur, run, ok, after, toNat_nextDecrement v cur⟩

/-- Settles O14: Reset completes, and `apply` gives it 0 for every counter read; its trailing bytes are O5's. -/
theorem resetSetsTheCounterToZero : Obligations.ResetSetsTheCounterToZero := by
  intro s accepted
  obtain ⟨_, t, -, completes⟩ := exec_completes .reset accepted
  exact ⟨rfl, resetIgnoresItsTrailingBytes, t, completes⟩

/-- Settles O15: Update completes, and `apply` gives it the operand for every counter read. -/
theorem updateLoadsTheOperand : Obligations.UpdateLoadsTheOperand := by
  intro v s accepted
  obtain ⟨_, t, -, completes⟩ := exec_completes (.update v) accepted
  exact ⟨rfl, t, completes⟩

end Sys2Proof.Machine
end

section
/-! PROOFS. The family 60_exceptions.md: how an invocation ends, and that STATUS is an output no step reads. -/
namespace Sys2Proof.Machine

/-! ### How an invocation ends -/

/-- Every invocation ends in one of two ways: aborted, in the state of the hand-over with the error on STATUS, or
completed, with another buffer and OK on STATUS. -/
theorem step_aborts_or_completes {s t : State} {inv : Invocation} {rest : List Invocation}
    (queued : s.pending = inv :: rest) (h : step s = .next t) :
    (∃ e, t = (s.accept inv rest).withStatus (some (.aborted e))) ∨
    (∃ sb, t = ((s.accept inv rest).withSb sb).withStatus (some .ok)) := by
  obtain ⟨_, -, aborted⟩ | ⟨_, -, ran⟩ := step_cases_of_pending queued h
  · exact .inl ⟨_, aborted⟩
  · obtain ⟨_, sb, -, -, -, completed⟩ | ⟨-, aborted⟩ := exec_cases ran
    · exact .inr ⟨sb, completed⟩
    · exact .inl ⟨_, aborted⟩

/-! ### STATUS is not read -/

@[simp] theorem State.withStatus_withStatus (s : State) (x y : Option Status) :
    (s.withStatus x).withStatus y = s.withStatus y := rfl

@[simp] theorem State.stateLenOk_withStatus (s : State) (x : Option Status) :
    (s.withStatus x).stateLenOk = s.stateLenOk := rfl

@[simp] theorem State.withSb_withStatus (s : State) (x : Option Status) (m : Memory) :
    (s.withStatus x).withSb m = (s.withSb m).withStatus x := rfl

@[simp] theorem State.accept_withStatus (s : State) (x : Option Status) (inv : Invocation) (rest : List Invocation) :
    (s.withStatus x).accept inv rest = (s.accept inv rest).withStatus x := rfl

/-- The datapath decides by the parameters and the buffer, and both ways out of it overwrite STATUS. -/
theorem runDecoded_withStatus (nextOf : Word → Word) (s : State) (x : Option Status) :
    runDecoded nextOf (s.withStatus x) = runDecoded nextOf s := by
  cases accepted : s.stateLenOk with
  | true =>
    obtain ⟨cur, sb, read, written, run⟩ := runDecoded_of_stateLenOk nextOf (s := s.withStatus x) accepted
    obtain ⟨cur', sb', read', written', run'⟩ := runDecoded_of_stateLenOk nextOf accepted
    obtain rfl : cur = cur' := Option.some.inj (read.symm.trans read')
    obtain rfl : sb = sb' := Option.some.inj (written.symm.trans written')
    exact run.trans run'.symm
  | false => simp [runDecoded_of_not_stateLenOk, accepted]

theorem exec_withStatus (i : Instr) (s : State) (x : Option Status) : exec i (s.withStatus x) = exec i s := by
  rw [exec_eq_runDecoded, exec_eq_runDecoded, runDecoded_withStatus]

theorem step_withStatus (s : State) (x : Option Status) : step (s.withStatus x) = step s := by
  cases queued : s.pending with
  | nil => simp [step, queued, idle_eq]
  | cons inv rest =>
    cases decoded : decode s.params.emptyInstrError inv.ib with
    | error e => simp [step, queued, decoded, raise_eq]
    | ok i => simp [step, queued, decoded, exec_withStatus]

/-! ### The statements -/

/-- Settles O22: of the two ways an invocation ends only the abort has an error on STATUS, and it keeps the buffer
handed over (R104). -/
theorem abortLeavesTheBufferUnchanged : Obligations.AbortLeavesTheBufferUnchanged := by
  intro s t inv rest e queued run reported
  obtain ⟨e', rfl⟩ | ⟨sb, rfl⟩ := step_aborts_or_completes queued run
  · obtain rfl : e' = e := by simpa using reported
    exact ⟨rfl, fun _ => rfl⟩
  · simp at reported

/-- Settles O23: both ways an invocation ends leave the rest of the queue, and no step reads STATUS (R106). -/
theorem everyInvocationStartsAfresh : Obligations.EveryInvocationStartsAfresh := by
  intro s t inv rest queued run
  refine ⟨?_, step_withStatus t⟩
  obtain ⟨_, rfl⟩ | ⟨_, rfl⟩ := step_aborts_or_completes queued run <;> rfl

end Sys2Proof.Machine
end

section
/-! PROOFS. Encoding and decoding: the byte order, the decoder's outcomes case by case, and the round trip. -/
namespace Sys2Proof

/-! ### Byte order -/

theorem toNat_append_byte {n : Nat} (x : BitVec n) (b : Byte) : (x ++ b).toNat = 2 ^ 8 * x.toNat + b.toNat := by
  rw [BitVec.toNat_append, ← Nat.shiftLeft_add_eq_or_of_lt b.isLt, Nat.shiftLeft_eq, Nat.mul_comm]

theorem toNat_le32 (b0 b1 b2 b3 : Byte) :
    (le32 b0 b1 b2 b3).toNat = b0.toNat + 2 ^ 8 * b1.toNat + 2 ^ 16 * b2.toNat + 2 ^ 24 * b3.toNat := by
  simp only [le32, toNat_append_byte]
  omega

theorem extractLsb'_append_byte_succ {n : Nat} (x : BitVec n) (b : Byte) (k : Nat) :
    (x ++ b).extractLsb' (8 * (k + 1)) 8 = x.extractLsb' (8 * k) 8 :=
  BitVec.extractLsb'_append_eq_of_le (by omega)

theorem le32Bytes_le32 (b0 b1 b2 b3 : Byte) : le32Bytes (le32 b0 b1 b2 b3) = [b0, b1, b2, b3] := by
  have byte0 : wordByte (le32 b0 b1 b2 b3) 0 = b0 := BitVec.extractLsb'_append_eq_right
  have byte1 : wordByte (le32 b0 b1 b2 b3) 1 = b1 :=
    (extractLsb'_append_byte_succ _ b0 0).trans BitVec.extractLsb'_append_eq_right
  have byte2 : wordByte (le32 b0 b1 b2 b3) 2 = b2 :=
    (extractLsb'_append_byte_succ _ b0 1).trans <| (extractLsb'_append_byte_succ _ b1 0).trans
      BitVec.extractLsb'_append_eq_right
  have byte3 : wordByte (le32 b0 b1 b2 b3) 3 = b3 :=
    (extractLsb'_append_byte_succ _ b0 2).trans <| (extractLsb'_append_byte_succ _ b1 1).trans <|
      (extractLsb'_append_byte_succ _ b2 0).trans BitVec.extractLsb'_eq_self
  rw [le32Bytes, byte0, byte1, byte2, byte3]

/-! ### One kind, one operand -/

/-- The term of a kind with an operand; Reset takes none. -/
def Kind.withOperand : Kind → Word → Instr
  | .increment, v => .increment v
  | .decrement, v => .decrement v
  | .update, v => .update v
  | .reset, _ => .reset

@[simp] theorem kind_withOperand (k : Kind) (v : Word) : (k.withOperand v).kind = k := by
  cases k <;> rfl

theorem Machine.instrOperand_withOperand {k : Kind} (operand : k ≠ .reset) (v : Word) :
    Machine.instrOperand (k.withOperand v) = some v := by
  cases k with
  | reset => exact absurd rfl operand
  | increment | decrement | update => rfl

theorem encode_withOperand {k : Kind} (operand : k ≠ .reset) (v : Word) :
    encode (k.withOperand v) = k.opcode :: le32Bytes v := by
  cases k with
  | reset => exact absurd rfl operand
  | increment | decrement | update => rfl

theorem assembleTerm_some {k : Kind} (operand : k ≠ .reset) (v : Nat) :
    assembleTerm k (some v) = if operandInRange v then some (k.withOperand (BitVec.ofNat 32 v)) else none := by
  cases k with
  | reset => exact absurd rfl operand
  | increment | decrement | update => rfl

/-! ### The opcode mux -/

theorem opcodeMux_opcode (k : Kind) : opcodeMux k.opcode = some k := by
  cases k <;> rfl

/-- R63 and R65: the mux selects a kind on that kind's opcode and on no other byte. -/
theorem opcodeMux_eq_some_iff {opc : Byte} {k : Kind} : opcodeMux opc = some k ↔ opc = k.opcode := by
  refine ⟨fun selected => BitVec.eq_of_toNat_eq ?_, fun h => h ▸ opcodeMux_opcode k⟩
  unfold opcodeMux at selected
  split at selected
  case h_5 => cases selected
  all_goals
    rename_i value
    obtain rfl := Option.some.inj selected
    exact value

theorem four_le_of_opcodeMux_none {opc : Byte} (illegal : opcodeMux opc = none) : 4 ≤ opc.toNat := by
  by_contra below
  obtain value | value | value | value :
    opc.toNat = 0 ∨ opc.toNat = 1 ∨ opc.toNat = 2 ∨ opc.toNat = 3 := by omega
  all_goals simp [opcodeMux, value] at illegal

theorem toNat_opcode_lt_four (k : Kind) : k.opcode.toNat < 4 := by
  cases k <;> decide

theorem toNat_opcode_lt_three_iff {k : Kind} : k.opcode.toNat < 3 ↔ k ≠ .reset := by
  cases k <;> decide

/-! ### The operand -/

theorem decode_of_opcodeMux_operand (e : DecodeError) {opc : Byte} {k : Kind} (rest : List Byte)
    (selected : opcodeMux opc = some k) (operand : k ≠ .reset) :
    decode e (opc :: rest) = (deserializeOperand (opc :: rest)).map k.withOperand := by
  cases k with
  | reset => exact absurd rfl operand
  | increment | decrement | update => simp only [decode, selected]; rfl

/-- R66: either fewer than five bytes, or four to assemble. -/
theorem deserializeOperand_cases (ib : List Byte) :
    (ib.length < 5 ∧ deserializeOperand ib = .error .truncatedPayload) ∨
    (∃ opc b1 b2 b3 b4 rest, ib = opc :: b1 :: b2 :: b3 :: b4 :: rest ∧
      deserializeOperand ib = .ok (le32 b1 b2 b3 b4)) := by
  match ib with
  | opc :: b1 :: b2 :: b3 :: b4 :: rest => exact .inr ⟨opc, b1, b2, b3, b4, rest, rfl, rfl⟩
  | [] | [_] | [_, _] | [_, _, _] | [_, _, _, _] => exact .inl ⟨by simp, rfl⟩

/-- The decoder on a buffer that is not empty, in the order of its checks (R102): an illegal opcode, Reset, an operand
cut short, or an operand. -/
theorem decode_cons_cases (e : DecodeError) (opc : Byte) (rest : List Byte) :
    (4 ≤ opc.toNat ∧ decode e (opc :: rest) = .error .unknownOpcode) ∨
    (opc = Kind.opcode .reset ∧ decode e (opc :: rest) = .ok .reset) ∨
    (∃ k, k ≠ .reset ∧ opc = Kind.opcode k ∧ (opc :: rest).length < 5 ∧
      decode e (opc :: rest) = .error .truncatedPayload) ∨
    (∃ k b1 b2 b3 b4 tail, k ≠ .reset ∧ opc = Kind.opcode k ∧ rest = b1 :: b2 :: b3 :: b4 :: tail ∧
      decode e (opc :: rest) = .ok (k.withOperand (le32 b1 b2 b3 b4))) := by
  cases selected : opcodeMux opc with
  | none => exact .inl ⟨four_le_of_opcodeMux_none selected, decode_of_opcodeMux_none e rest selected⟩
  | some k =>
    have opcode := opcodeMux_eq_some_iff.mp selected
    by_cases operand : k = .reset
    · subst operand
      exact .inr (.inl ⟨opcode, decode_of_opcodeMux_reset e rest selected⟩)
    · have decoded := decode_of_opcodeMux_operand e rest selected operand
      obtain ⟨short, failed⟩ | ⟨_, b1, b2, b3, b4, tail, split, read⟩ := deserializeOperand_cases (opc :: rest)
      · rw [failed] at decoded
        exact .inr (.inr (.inl ⟨k, operand, opcode, short, decoded⟩))
      · rw [read] at decoded
        exact .inr (.inr (.inr ⟨k, b1, b2, b3, b4, tail, operand, opcode, (List.cons.inj split).2, decoded⟩))

/-! ### The round trip -/

/-- D4 (log entry 10): what follows a canonical encoding changes nothing. -/
theorem decode_encode_append (e : DecodeError) (i : Instr) (tail : List Byte) :
    decode e (encode i ++ tail) = .ok i := by
  cases i with
  | reset => exact resetIgnoresItsTrailingBytes e tail
  | increment v => exact congrArg (fun w => Except.ok (Instr.increment w)) (Machine.le32_wordByte v)
  | decrement v => exact congrArg (fun w => Except.ok (Instr.decrement w)) (Machine.le32_wordByte v)
  | update v => exact congrArg (fun w => Except.ok (Instr.update w)) (Machine.le32_wordByte v)

theorem encode_isPrefix_of_decode {e : DecodeError} {ib : List Byte} {i : Instr} (h : decode e ib = .ok i) :
    encode i <+: ib := by
  cases ib with
  | nil => cases h
  | cons opc rest =>
    obtain ⟨-, decoded⟩ | ⟨rfl, decoded⟩ | ⟨_, -, -, -, decoded⟩ |
      ⟨k, b1, b2, b3, b4, tail, operand, rfl, rfl, decoded⟩ := decode_cons_cases e opc rest
    · cases h.symm.trans decoded
    · obtain rfl := Except.ok.inj (h.symm.trans decoded)
      exact ⟨rest, rfl⟩
    · cases h.symm.trans decoded
    · obtain rfl := Except.ok.inj (h.symm.trans decoded)
      rw [encode_withOperand operand, le32Bytes_le32]
      exact ⟨tail, rfl⟩

/-! ### The statements -/

/-- Settles O1: the round trip holds with any tail, here the empty one. -/
theorem decodeOfEncodeIsTheInstruction : Obligations.DecodeOfEncodeIsTheInstruction := by
  intro e i _
  simpa using decode_encode_append e i []

/-- Settles O2: the round trip with a tail is one direction; the other reads the encoding off the decoder's cases. -/
theorem acceptedBuffersBeginWithTheEncoding : Obligations.AcceptedBuffersBeginWithTheEncoding := by
  intro e ib i
  refine ⟨encode_isPrefix_of_decode, ?_⟩
  rintro ⟨tail, rfl⟩
  exact decode_encode_append e i tail

/-- Settles O4: an opcode with an operand leaves the decode to the deserializer, which assembles with R11's weights. -/
theorem operandIsDeserializedLittleEndian : Obligations.OperandIsDeserializedLittleEndian := by
  intro e opc k selected operand
  refine ⟨fun rest short => ?_, fun b1 b2 b3 b4 rest => ?_⟩
  · rw [decode_of_opcodeMux_operand e rest selected operand]
    obtain ⟨-, failed⟩ | ⟨_, _, _, _, _, _, split, -⟩ := deserializeOperand_cases (opc :: rest)
    · rw [failed]
      rfl
    · simp [split] at short
      omega
  · exact ⟨k.withOperand (le32 b1 b2 b3 b4), le32 b1 b2 b3 b4, decode_of_opcodeMux_operand e _ selected operand,
      kind_withOperand k _, Machine.instrOperand_withOperand operand _, toNat_le32 b1 b2 b3 b4⟩

/-- Settles O7: each buffer is decoded by evaluation. -/
theorem wordsOfTheSpecDecode : Obligations.WordsOfTheSpecDecode :=
  ⟨rfl, rfl, rfl, rfl, rfl, rfl⟩

/-- Settles O8: the range check decides, and an integer within it is the value of the operand's word. -/
theorem assemblerTakesExactlyTheOperandsInRange : Obligations.AssemblerTakesExactlyTheOperandsInRange := by
  intro k v operand
  rw [assembleTerm_some operand]
  refine ⟨fun large => if_neg (by simpa [operandInRange] using large), fun inRange => ?_⟩
  refine ⟨_, if_pos (by simpa [operandInRange] using inRange), kind_withOperand k _, ?_, ?_⟩
  · rw [Machine.instrOperand_withOperand operand, Option.map_some, BitVec.toNat_ofNat, Nat.mod_eq_of_lt inRange]
  · rw [encode_withOperand operand]
    rfl

/-- Settles O9: the weights and the inverse. -/
theorem littleEndianWeights : Obligations.LittleEndianWeights :=
  fun b0 b1 b2 b3 => ⟨toNat_le32 b0 b1 b2 b3, le32Bytes_le32 b0 b1 b2 b3⟩

end Sys2Proof
end

section
/-! PROOFS. The buffer as a byte sequence: its contents, its first four bytes, and the canonical form. -/
namespace Sys2Proof.Machine

/-! ### Contents -/

@[simp] theorem Memory.bytes_ofBytes (bytes : List Byte) : (Memory.ofBytes bytes).bytes = bytes := by
  refine List.ext_getElem (by simp) fun a _ inside => ?_
  rw [Memory.getElem_bytes, Memory.byteAt_ofBytes, List.getD_eq_getElem _ _ inside]

theorem Memory.memRead32_of_bytes {m : Memory} {b0 b1 b2 b3 : Byte} {rest : List Byte}
    (contents : m.bytes = b0 :: b1 :: b2 :: b3 :: rest) : m.memRead32 counterOffset = some (le32 b0 b1 b2 b3) := by
  apply Memory.memRead32_of_reads <;> simp [Memory.read_eq_getElem, contents]

theorem Memory.read_of_memWrite32_outside {m m' : Memory} {a k : Nat} {v : Word}
    (h : m.memWrite32 a v = some m') (outside : k < a ∨ a + 4 ≤ k) : m'.read k = m.read k := by
  obtain ⟨-, len, -, kept, -⟩ := Memory.memWrite32_spec h
  simp only [Memory.read, len, kept k outside]

theorem Memory.len_memWrite32 {m m' : Memory} {a : Nat} {v : Word} (h : m.memWrite32 a v = some m') :
    m'.len = m.len := by
  obtain ⟨-, len, -⟩ := Memory.memWrite32_spec h
  exact len

/-- A four-byte write at the start puts the word's bytes before the contents from offset 4 on. -/
theorem Memory.bytes_memWrite32 {m m' : Memory} {v : Word} (h : m.memWrite32 counterOffset v = some m') :
    m'.bytes = le32Bytes v ++ m.bytes.drop 4 := by
  obtain ⟨room, len, written, kept, -⟩ := Memory.memWrite32_spec h
  have four : (le32Bytes v).length = 4 := rfl
  refine List.ext_getElem (by simp [four]; omega) fun a _ _ => ?_
  rw [Memory.getElem_bytes]
  by_cases counter : a < 4
  · rw [List.getElem_append_left (by omega), ← written a counter, Nat.zero_add]
  · rw [List.getElem_append_right (by omega), List.getElem_drop, Memory.getElem_bytes,
      kept a (.inr (Nat.not_lt.mp counter)), four, Nat.add_sub_of_le (by omega)]

theorem Memory.exists_four_bytes {m : Memory} (room : 4 ≤ m.len) :
    ∃ b0 b1 b2 b3 rest, m.bytes = b0 :: b1 :: b2 :: b3 :: rest := by
  rw [← Memory.length_bytes] at room
  match m.bytes, room with
  | b0 :: b1 :: b2 :: b3 :: rest, _ => exact ⟨b0, b1, b2, b3, rest, rfl⟩

/-! ### The canonical form -/

theorem cellsCanonical_cons_iff {len lo k : Nat} {b : Byte} {rest : List Host.Cell} :
    cellsCanonical len lo ((k, b) :: rest) = true ↔
      lo ≤ k ∧ k < len ∧ b ≠ unlistedByte ∧ cellsCanonical len (k + 1) rest = true := by
  simp [cellsCanonical, and_assoc]

@[simp] theorem lookupCell_head (k : Nat) (b : Byte) (rest : List Host.Cell) : lookupCell ((k, b) :: rest) k = b :=
  if_pos rfl

theorem lookupCell_tail {k a : Nat} (b : Byte) (rest : List Host.Cell) (h : a ≠ k) :
    lookupCell ((k, b) :: rest) a = lookupCell rest a :=
  if_neg h.symm

/-- An offset at which the cells do not read as an unlisted one does lies within their bounds. -/
theorem bounds_of_lookupCell_ne {len lo a : Nat} {cells : List Host.Cell}
    (wf : cellsCanonical len lo cells = true) (listed : lookupCell cells a ≠ unlistedByte) : lo ≤ a ∧ a < len := by
  induction cells generalizing lo with
  | nil => exact absurd rfl listed
  | cons head rest ih =>
    obtain ⟨above, below, -, tail⟩ := cellsCanonical_cons_iff.mp wf
    by_cases here : a = head.1
    · omega
    · have := ih tail (lookupCell_tail head.2 rest here ▸ listed)
      omega

theorem lookupCell_of_lt {len lo a : Nat} {cells : List Host.Cell} (wf : cellsCanonical len lo cells = true)
    (below : a < lo) : lookupCell cells a = unlistedByte := by
  by_contra listed
  exact absurd (bounds_of_lookupCell_ne wf listed).1 (by omega)

theorem head_le_of_lookupCell_ne {len lo k a : Nat} {b : Byte} {rest : List Host.Cell}
    (wf : cellsCanonical len lo ((k, b) :: rest) = true) (listed : lookupCell ((k, b) :: rest) a ≠ unlistedByte) :
    k ≤ a := by
  obtain ⟨-, fields⟩ := cellsCanonical_cons_iff.mp wf
  exact (bounds_of_lookupCell_ne (cellsCanonical_cons_iff.mpr ⟨Nat.le_refl k, fields⟩) listed).1

/-- Two canonical lists that read alike begin at the same offset, with the same byte, and their tails read alike. -/
theorem cells_eq_of_lookupCell_eq {len lo : Nat} {cells cells' : List Host.Cell}
    (wf : cellsCanonical len lo cells = true) (wf' : cellsCanonical len lo cells' = true)
    (alike : ∀ a, lookupCell cells a = lookupCell cells' a) : cells = cells' := by
  induction cells generalizing lo cells' with
  | nil =>
    cases cells' with
    | nil => rfl
    | cons head' rest' =>
      obtain ⟨-, -, listed, -⟩ := cellsCanonical_cons_iff.mp wf'
      exact absurd (by simpa [lookupCell] using (alike head'.1).symm) listed
  | cons head rest ih =>
    obtain ⟨k, b⟩ := head
    obtain ⟨-, -, listed, tail⟩ := cellsCanonical_cons_iff.mp wf
    cases cells' with
    | nil => exact absurd (by simpa [lookupCell] using alike k) listed
    | cons head' rest' =>
      obtain ⟨k', b'⟩ := head'
      obtain ⟨-, -, listed', tail'⟩ := cellsCanonical_cons_iff.mp wf'
      have le : k ≤ k' := head_le_of_lookupCell_ne wf (by simpa [alike] using listed')
      have ge : k' ≤ k := head_le_of_lookupCell_ne wf' (by simpa [← alike] using listed)
      obtain rfl : k = k' := Nat.le_antisymm le ge
      obtain rfl : b = b' := by simpa using alike k
      have tails : ∀ a, lookupCell rest a = lookupCell rest' a := by
        intro a
        by_cases here : a = k
        · rw [lookupCell_of_lt tail (by omega), lookupCell_of_lt tail' (by omega)]
        · rw [← lookupCell_tail b rest here, alike, lookupCell_tail b rest' here]
      rw [ih tail tail' tails]

/-- Past the end every offset of a canonical buffer reads as an unlisted one. -/
theorem Memory.byteAt_of_ge {m : Memory} {a : Nat} (wf : m.wf = true) (past : m.len ≤ a) :
    m.byteAt a = unlistedByte := by
  by_contra listed
  exact absurd (bounds_of_lookupCell_ne wf listed).2 (by omega)

theorem wf_handedOver {s : State} (inv : Invocation) (wf : s.sb.wf = true) : (handedOver s inv).wf = true := by
  unfold handedOver
  split
  · exact wf
  · exact Memory.wf_ofBytes _

theorem Memory.wf_memWrite32 {m m' : Memory} {a : Nat} {v : Word} (h : m.memWrite32 a v = some m')
    (wf : m.wf = true) : m'.wf = true := by
  obtain ⟨-, -, -, -, kept⟩ := Memory.memWrite32_spec h
  exact kept wf

/-! ### The statements -/

/-- Settles O34: within the length the bytes are those read, past it neither buffer lists a byte. -/
theorem canonicalBuffersThatReadAlikeAreEqual : Obligations.CanonicalBuffersThatReadAlikeAreEqual := by
  rintro ⟨len, cells⟩ ⟨len', cells'⟩ wf wf' sameLen alike
  obtain rfl : len = len' := sameLen
  refine congrArg _ (cells_eq_of_lookupCell_eq wf wf' fun a => ?_)
  by_cases inside : a < len
  · have := alike a
    rwa [Memory.read_of_lt inside, Memory.read_of_lt inside, Option.some_inj] at this
  · exact (Memory.byteAt_of_ge wf (by simpa using inside)).trans (Memory.byteAt_of_ge wf' (by simpa using inside)).symm

/-- Settles O33: a buffer made from bytes is canonical and holds them, so its counter is their first four. -/
theorem everyInitStateIsTakenUp : Obligations.EveryInitStateIsTakenUp := by
  intro p bytes
  refine ⟨Memory.wf_ofBytes bytes, Memory.bytes_ofBytes bytes, fun b0 b1 b2 b3 rest contents => ?_⟩
  exact Memory.memRead32_of_bytes ((Memory.bytes_ofBytes bytes).trans contents)

/-- Settles O32: reset is the start with four zero bytes and the default parameters. -/
theorem resetState : Obligations.ResetState := by
  obtain ⟨canonical, contents, counter⟩ := everyInitStateIsTakenUp Params.default [0, 0, 0, 0]
  exact ⟨canonical, rfl, rfl, rfl, rfl, contents, counter 0 0 0 0 [] rfl⟩

end Sys2Proof.Machine
end

section
/-! PROOFS. What an instruction and a step answer: totality, the frame, the canonical form, and the outcome reported. -/
namespace Sys2Proof.Machine

open Sys2Proof.Safety

/-! ### One instruction -/

theorem stateLengthOk_iff {p : Params} {m : Nat} :
    stateLengthOk p m = true ↔ if p.stateLenExact = true then m = 4 else 4 ≤ m := by
  unfold stateLengthOk
  split <;> exact decide_eq_true_iff

theorem exec_of_not_stateLenOk (i : Instr) {s : State} (rejected : s.stateLenOk = false) :
    exec i s = .next (s.withStatus (some (.aborted .stateDeserializationError))) :=
  (exec_eq_runDecoded i s).trans (runDecoded_of_not_stateLenOk _ rejected)

theorem exec_total (i : Instr) (s : State) : ∃ t, exec i s = .next t := by
  cases accepted : s.stateLenOk with
  | true =>
    obtain ⟨_, t, -, run, -⟩ := exec_completes i accepted
    exact ⟨t, run⟩
  | false => exact ⟨_, exec_of_not_stateLenOk i accepted⟩

theorem status_of_exec {i : Instr} {s t : State} (run : exec i s = .next t) :
    t.status = some (if s.stateLenOk = true then .ok else .aborted .stateDeserializationError) := by
  obtain ⟨_, _, accepted, -, -, rfl⟩ | ⟨rejected, rfl⟩ := exec_cases run
  · simp [accepted]
  · simp [rejected]

theorem wf_of_exec {i : Instr} {s t : State} (run : exec i s = .next t) (wf : s.sb.wf = true) : t.sb.wf = true := by
  obtain ⟨_, _, -, -, written, rfl⟩ | ⟨-, rfl⟩ := exec_cases run
  · exact Memory.wf_memWrite32 written wf
  · exact wf

/-! ### One step -/

theorem step_of_decode_error {s : State} {inv : Invocation} {rest : List Invocation} {e : DecodeError}
    (queued : s.pending = inv :: rest) (failed : decode s.params.emptyInstrError inv.ib = .error e) :
    step s = .next ((s.accept inv rest).withStatus (some (.aborted (decodeErrorStatus e)))) := by
  simp [step, queued, failed, raise_eq]

theorem step_of_decode_ok {s : State} {inv : Invocation} {rest : List Invocation} {i : Instr}
    (queued : s.pending = inv :: rest) (decoded : decode s.params.emptyInstrError inv.ib = .ok i) :
    step s = exec i (s.accept inv rest) := by
  simp [step, queued, decoded]

theorem status_of_step_of_decode_error {s t : State} {inv : Invocation} {rest : List Invocation} {e : DecodeError}
    (queued : s.pending = inv :: rest) (run : step s = .next t)
    (failed : decode s.params.emptyInstrError inv.ib = .error e) :
    t.status = some (.aborted (decodeErrorStatus e)) := by
  obtain rfl := Host.Outcome.next.inj (run.symm.trans (step_of_decode_error queued failed))
  rfl

theorem status_of_step_of_decode_ok {s t : State} {inv : Invocation} {rest : List Invocation} {i : Instr}
    (queued : s.pending = inv :: rest) (run : step s = .next t)
    (decoded : decode s.params.emptyInstrError inv.ib = .ok i) :
    t.status = some (if stateLengthOk s.params (handedOver s inv).len = true then .ok
      else .aborted .stateDeserializationError) :=
  status_of_exec ((step_of_decode_ok queued decoded).symm.trans run)

theorem step_total (s : State) : ∃ t, step s = .next t := by
  obtain ⟨-, run⟩ | ⟨_, _, _, -, -, run⟩ | ⟨inv, rest, i, -, -, run⟩ := step_cases s
  · exact ⟨_, run⟩
  · exact ⟨_, run⟩
  · exact run ▸ exec_total i (s.accept inv rest)

theorem decodeErrorStatus_ne_stateSerializationError (e : DecodeError) :
    decodeErrorStatus e ≠ .stateSerializationError := by
  cases e <;> simp [decodeErrorStatus]

@[simp] theorem sbBytes_accept (s : State) (inv : Invocation) (rest : List Invocation) :
    sbBytes (s.accept inv rest) = handedBytes (sbBytes s) inv := by
  obtain ⟨_, _ | bytes⟩ := inv
  · rfl
  · exact Memory.bytes_ofBytes bytes

/-! ### Status codes -/

/-- The code's reading on the host's side (R101). -/
def statusOfCode (code : BitVec 3) : Option Status :=
  match code.toNat with
  | 0 => some .ok
  | 1 => some (.aborted .unknownOpcode)
  | 2 => some (.aborted .truncatedPayload)
  | 3 => some (.aborted .stateDeserializationError)
  | 4 => some (.aborted .stateSerializationError)
  | _ => none

theorem statusOfCode_statusCode (x : Status) : statusOfCode (statusCode x) = some x := by
  cases x with
  | ok => rfl
  | aborted e => cases e <;> rfl

theorem statusCode_injective {x y : Status} (h : statusCode x = statusCode y) : x = y :=
  Option.some.inj <| (statusOfCode_statusCode x).symm.trans <| h ▸ statusOfCode_statusCode y

theorem toNat_statusCode_lt (x : Status) : (statusCode x).toNat < 5 := by
  cases x with
  | ok => decide
  | aborted e => cases e <;> decide

/-! ### The statements -/

/-- Settles O31: the hand-over and every write keep the canonical form, and nothing else touches the buffer. -/
theorem stepKeepsTheCanonicalForm : Obligations.StepKeepsTheCanonicalForm := by
  intro s t wf run
  obtain ⟨-, idled⟩ | ⟨inv, _, _, -, -, aborted⟩ | ⟨inv, _, _, -, -, ran⟩ := step_cases s
  · obtain rfl := Host.Outcome.next.inj (run.symm.trans idled)
    exact wf
  · obtain rfl := Host.Outcome.next.inj (run.symm.trans aborted)
    exact wf_handedOver inv wf
  · exact wf_of_exec (ran.symm.trans run) (wf_handedOver inv wf)

/-- Settles O17: the check of R24 as lengths, and the datapath's abort before the read. -/
theorem unacceptedBufferAborts : Obligations.UnacceptedBufferAborts :=
  fun i _ => ⟨stateLengthOk_iff, exec_of_not_stateLenOk i⟩

/-- Settles O19: a success is one four-byte write, an abort touches STATUS alone. -/
theorem instructionsTouchOnlyCounterAndStatus : Obligations.InstructionsTouchOnlyCounterAndStatus := by
  intro i s t run
  obtain ⟨_, _, -, -, written, rfl⟩ | ⟨-, rfl⟩ := exec_cases run
  · exact ⟨rfl, rfl, Memory.len_memWrite32 written, fun _ => Memory.read_of_memWrite32_outside written⟩
  · exact ⟨rfl, rfl, rfl, fun _ _ => rfl⟩

/-- Settles O21: an instruction that runs to OK leaves `apply`, and both aborts keep the buffer handed over. -/
theorem callerSeesAnUpdateOrARejection : Obligations.CallerSeesAnUpdateOrARejection := by
  intro s t inv rest queued run
  refine ⟨?_, fun _ => status_of_step_of_decode_error queued run⟩
  obtain ⟨e, -, rfl⟩ | ⟨i, decoded, ran⟩ := step_cases_of_pending queued run
  · exact .inr ⟨_, rfl, rfl⟩
  · obtain ⟨cur, _, -, read, written, rfl⟩ | ⟨-, rfl⟩ := exec_cases ran
    · exact .inl ⟨i, cur, decoded, read, rfl, Memory.memRead32_of_memWrite32 written⟩
    · exact .inr ⟨_, rfl, rfl⟩

/-- Settles O24: the decoder's cases in the order of its checks, then the length of SB. -/
theorem statusFollowsTheErrorPriority : Obligations.StatusFollowsTheErrorPriority := by
  intro s inv rest queued
  obtain ⟨t, run⟩ := step_total s
  have failing {e} := status_of_step_of_decode_error (e := e) queued run
  have running {i} := status_of_step_of_decode_ok (i := i) queued run
  refine ⟨t, run, fun empty => failing (by rw [empty]; rfl), fun opc tail bytes => ?_⟩
  rw [bytes] at failing running ⊢
  obtain ⟨illegal, decoded⟩ | ⟨rfl, decoded⟩ | ⟨k, operand, rfl, short, decoded⟩ |
    ⟨k, _, _, _, _, _, operand, rfl, rfl, decoded⟩ := decode_cons_cases s.params.emptyInstrError opc tail
  · rw [failing decoded, if_pos illegal]
    rfl
  · have noOperand : ¬ (Kind.reset.opcode.toNat < 3 ∧ (Kind.reset.opcode :: tail).length < 5) := by
      simp [toNat_opcode_lt_three_iff]
    rw [running decoded, if_neg (toNat_opcode_lt_four .reset).not_ge, if_neg noOperand]
  · rw [failing decoded, if_neg (toNat_opcode_lt_four k).not_ge,
      if_pos ⟨toNat_opcode_lt_three_iff.mpr operand, short⟩]
    rfl
  · rw [running decoded, if_neg (toNat_opcode_lt_four k).not_ge, if_neg (c := _ ∧ _) (by simp)]

/-- Settles O25: of the outcomes a step can report, a decode error, OK and the read path's error, none is the write
path's. -/
theorem serializationErrorIsNeverRaised : Obligations.SerializationErrorIsNeverRaised := by
  intro s t run
  obtain ⟨-, idled⟩ | ⟨_, _, e, -, -, aborted⟩ | ⟨_, _, _, -, -, ran⟩ := step_cases s
  · obtain rfl := Host.Outcome.next.inj (run.symm.trans idled)
    simp
  · obtain rfl := Host.Outcome.next.inj (run.symm.trans aborted)
    simpa using decodeErrorStatus_ne_stateSerializationError e
  · rw [status_of_exec (ran.symm.trans run)]
    split <;> simp

/-- Settles O29: each of the three things a step can do answers a next state. -/
theorem everyStepAnswersANextState : Obligations.EveryStepAnswersANextState :=
  step_total

/-- Settles O6: the empty buffer's decode fails with the parameter's error, and the abort keeps the buffer. -/
theorem emptyBufferReportsTheParameter : Obligations.EmptyBufferReportsTheParameter :=
  fun _ _ _ queued => ⟨_, step_of_decode_error queued rfl, rfl, rfl⟩

/-- Settles O26: the code is injective because it can be read back. -/
theorem statusCodesTellOutcomesApart : Obligations.StatusCodesTellOutcomesApart :=
  ⟨rfl, rfl, rfl, rfl, rfl, fun _ _ => statusCode_injective, toNat_statusCode_lt⟩

/-- Settles O27: the step's equation for a successful decode, and what the hand-over sets. -/
theorem stepRunsTheDecodedInstruction : Obligations.StepRunsTheDecodedInstruction := by
  intro s inv rest i queued decoded _
  refine ⟨step_of_decode_ok queued decoded, rfl, rfl, rfl, fun none_new => ?_, fun bytes new => ?_⟩
  · simp [handedOver, none_new]
  · simp [handedBytes, new]

/-- Settles O28: with nothing pending a step is the idle one. -/
theorem withoutInvocationNothingHappens : Obligations.WithoutInvocationNothingHappens := by
  intro s empty
  obtain ⟨-, idled⟩ | ⟨_, _, _, queued, -⟩ | ⟨_, _, _, queued, -⟩ := step_cases s
  · exact idled
  all_goals exact absurd (empty.symm.trans queued) (List.cons_ne_nil _ _).symm

end Sys2Proof.Machine
end

section
/-! PROOFS. Refinement: a step is `Invoke` on byte sequences, and running the queue is the sequence of `Invoke`s. -/
namespace Sys2Proof.Machine

open Sys2Proof.Safety

/-! ### `Invoke` on bytes, one equation per outcome -/

theorem invokeBytes_of_decode_error {p : Params} {ib : List Byte} {e : DecodeError} (sb : List Byte)
    (failed : decode p.emptyInstrError ib = .error e) :
    invokeBytes p ib sb = (.aborted (decodeErrorStatus e), sb) := by
  simp [invokeBytes, failed]

theorem invokeBytes_of_not_stateLengthOk {p : Params} {ib sb : List Byte} {i : Instr}
    (decoded : decode p.emptyInstrError ib = .ok i) (rejected : stateLengthOk p sb.length = false) :
    invokeBytes p ib sb = (.aborted .stateDeserializationError, sb) := by
  simp [invokeBytes, decoded, rejected]

theorem invokeBytes_of_stateLengthOk {p : Params} {ib sb rest : List Byte} {i : Instr} {b0 b1 b2 b3 : Byte}
    (decoded : decode p.emptyInstrError ib = .ok i) (accepted : stateLengthOk p sb.length = true)
    (contents : sb = b0 :: b1 :: b2 :: b3 :: rest) :
    invokeBytes p ib sb = (.ok, le32Bytes (apply (le32 b0 b1 b2 b3) i) ++ rest) := by
  subst contents
  simp only [invokeBytes, decoded, if_pos accepted]

/-! ### Refinement -/

/-- An instruction does to the buffer what `Invoke` does to its bytes once they have decoded to it. -/
theorem exec_refines_invokeBytes {i : Instr} {s t : State} {ib : List Byte}
    (decoded : decode s.params.emptyInstrError ib = .ok i) (run : exec i s = .next t) :
    ∃ status, t.status = some status ∧ (status, sbBytes t) = invokeBytes s.params ib (sbBytes s) := by
  have sameCheck : stateLengthOk s.params (sbBytes s).length = s.stateLenOk :=
    congrArg _ (Memory.length_bytes s.sb)
  obtain ⟨cur, sb, accepted, read, written, rfl⟩ | ⟨rejected, rfl⟩ := exec_cases run
  · obtain ⟨b0, b1, b2, b3, rest, contents⟩ := Memory.exists_four_bytes (State.room_of_stateLenOk accepted)
    obtain rfl : cur = le32 b0 b1 b2 b3 := Option.some.inj (read.symm.trans (Memory.memRead32_of_bytes contents))
    have written : sb.bytes = le32Bytes (apply (le32 b0 b1 b2 b3) i) ++ rest := by
      rw [Memory.bytes_memWrite32 written, contents]
      rfl
    exact ⟨.ok, rfl, (congrArg _ written).trans
      (invokeBytes_of_stateLengthOk decoded (sameCheck.trans accepted) contents).symm⟩
  · exact ⟨_, rfl, (invokeBytes_of_not_stateLengthOk decoded (sameCheck.trans rejected)).symm⟩

theorem params_of_exec {i : Instr} {s t : State} (run : exec i s = .next t) : t.params = s.params :=
  (instructionsTouchOnlyCounterAndStatus i s t run).params

/-! ### Running the queue -/

theorem run_succ {M : Host.Core} {s s' : M.State} (k : Nat) (h : M.step s = .next s') :
    M.run (k + 1) s = M.run k s' := by
  simp only [Host.Core.run, h]

theorem runProgram_cons (p : Params) (sb : List Byte) (inv : Invocation) (rest : List Invocation) :
    runProgram p sb (inv :: rest) = runProgram p (invokeBytes p inv.ib (handedBytes sb inv)).2 rest :=
  rfl

/-! ### The statements -/

/-- Settles O35: a failed decode keeps the bytes handed over, an instruction that runs refines the rest of `Invoke`. -/
theorem stepRefinesInvoke : Obligations.StepRefinesInvoke := by
  intro s inv rest queued
  obtain ⟨t, run⟩ := step_total s
  obtain ⟨used, -⟩ := everyInvocationStartsAfresh s t inv rest queued run
  rw [← sbBytes_accept s inv rest]
  obtain ⟨_, failed, rfl⟩ | ⟨i, decoded, ran⟩ := step_cases_of_pending queued run
  · exact ⟨_, _, run, used, rfl, rfl, (invokeBytes_of_decode_error _ failed).symm⟩
  · obtain ⟨status, reported, refined⟩ := exec_refines_invokeBytes (s := s.accept inv rest) decoded ran
    exact ⟨t, status, run, used, params_of_exec (s := s.accept inv rest) ran, reported, refined⟩

theorem run_refines_runProgram (queue : List Invocation) {s : State} (queued : s.pending = queue) :
    ∃ t, Host.Core.run Sys2Proof.core queue.length s = .next t ∧ t.pending = [] ∧ t.params = s.params ∧
      sbBytes t = runProgram s.params (sbBytes s) queue := by
  induction queue generalizing s with
  | nil => exact ⟨s, rfl, queued, rfl, rfl⟩
  | cons inv rest ih =>
    obtain ⟨next, _, run, used, sameParams, -, refined⟩ := stepRefinesInvoke s inv rest queued
    obtain ⟨t, ran, empty, params, contents⟩ := ih used
    refine ⟨t, (run_succ rest.length run).trans ran, empty, params.trans sameParams, ?_⟩
    rw [contents, sameParams, runProgram_cons, ← refined]

/-- Settles O36: the run of the queue by induction on it, the first step being the first `Invoke`. -/
theorem queueRunIsTheSequenceOfInvokes : Obligations.QueueRunIsTheSequenceOfInvokes :=
  fun s => run_refines_runProgram s.pending rfl

/-- Settles O37: both steps are `Invoke` on the same bytes. -/
theorem outcomeDependsOnTheBuffersAlone : Obligations.OutcomeDependsOnTheBuffersAlone := by
  intro s s' inv inv' rest rest' queued queued' sameIb sameParams sameBytes
  obtain ⟨t, status, run, -, -, reported, refined⟩ := stepRefinesInvoke s inv rest queued
  obtain ⟨t', status', run', -, -, reported', refined'⟩ := stepRefinesInvoke s' inv' rest' queued'
  have sameHanded : handedBytes (sbBytes s) inv = handedBytes (sbBytes s') inv' := by
    rw [← sbBytes_accept s inv rest, ← sbBytes_accept s' inv' rest']
    exact sameBytes
  rw [← sameIb, ← sameParams, ← sameHanded, ← refined] at refined'
  obtain ⟨rfl, sameSb⟩ := Prod.mk.inj refined'
  exact ⟨t, t', run, run', reported.trans reported'.symm, sameSb.symm⟩

end Sys2Proof.Machine
end

section
/-! PROOFS. The ALU of R85: its 33-bit sum and difference on unsigned values, and the mux against `apply`. -/
namespace Sys2Proof.Machine

theorem getLsbD_32_eq_decide (x : BitVec 33) : x.getLsbD 32 = decide (2 ^ 32 ≤ x.toNat) :=
  (BitVec.msb_eq_getLsbD_last x).symm.trans (BitVec.msb_eq_decide x)

/-! ### The adder and the subtractor -/

theorem toNat_aluSum (cur v : Word) : (aluSum cur v).toNat = cur.toNat + v.toNat := by
  simp only [aluSum, BitVec.toNat_add, BitVec.toNat_setWidth, BitVec.truncate_eq_setWidth]
  omega

/-- A difference that wraps modulo 2^33 stays above 2^32, so its top bit is the borrow. -/
theorem toNat_aluDiff (cur v : Word) : (aluDiff cur v).toNat =
    if v.toNat > cur.toNat then 2 ^ 33 + cur.toNat - v.toNat else cur.toNat - v.toNat := by
  simp only [aluDiff, BitVec.toNat_sub, BitVec.toNat_setWidth, BitVec.truncate_eq_setWidth]
  split <;> omega

theorem aluCarry_iff (cur v : Word) : aluCarry cur v = true ↔ 2 ^ 32 ≤ cur.toNat + v.toNat := by
  rw [aluCarry, getLsbD_32_eq_decide, decide_eq_true_iff, toNat_aluSum]

theorem aluBorrow_iff (cur v : Word) : aluBorrow cur v = true ↔ v.toNat > cur.toNat := by
  rw [aluBorrow, getLsbD_32_eq_decide, decide_eq_true_iff, toNat_aluDiff]
  split <;> omega

/-! ### The mux -/

theorem aluMux_increment (cur v : Word) : aluMux .increment cur v = nextIncrement v cur := by
  apply BitVec.eq_of_toNat_eq
  simp [aluMux, nextIncrement, BitVec.extractLsb'_toNat, toNat_aluSum]

/-- Without a borrow the difference fits 32 bits, and the clamp covers the rest. -/
theorem aluMux_decrement (cur v : Word) : aluMux .decrement cur v = nextDecrement v cur := by
  apply BitVec.eq_of_toNat_eq
  rw [toNat_nextDecrement]
  by_cases above : v.toNat > cur.toNat
  · simp [aluMux, (aluBorrow_iff cur v).mpr above, above]
  · have noBorrow : ¬ aluBorrow cur v = true := mt (aluBorrow_iff cur v).mp above
    rw [aluMux, if_neg noBorrow, if_neg above, BitVec.extractLsb'_toNat, toNat_aluDiff, if_neg above,
      Nat.shiftRight_zero, Nat.mod_eq_of_lt (by omega)]

/-- Settles O30: the mux arm by arm, and the two signals on unsigned values. -/
theorem aluMuxComputesApply : Obligations.AluMuxComputesApply := by
  refine ⟨fun cur i x operand => ?_, fun cur v => ⟨aluBorrow_iff cur v, aluCarry_iff cur v⟩⟩
  cases i with
  | reset => rfl
  | increment v => obtain rfl : v = x := operand; exact aluMux_increment cur v
  | decrement v => obtain rfl : v = x := operand; exact aluMux_decrement cur v
  | update v => exact operand.symm

end Sys2Proof.Machine
end
